-- ==== Sys2Proof/Word.lean ====
section
/-! DEFINITION. The words that move through the cipher core: 32-bit windows, 64-bit words and 128-bit blocks
(spec/00_scope.md R6 and section 4). The bit-field helpers over them (halves, concatenation, block bit numbering)
are in Machine/Operands.lean. -/

namespace Sys2Proof

/-- A 32-bit unsigned value: a window, a transient, a value routed through one register (R6). -/
abbrev U32 := BitVec 32

/-- A 64-bit unsigned value: a register's seed or state, one word of a block (R6). -/
abbrev U64 := BitVec 64

/-- A 128-bit block as two 64-bit words (R6, glossary "Block"). -/
structure Block where
  word0 : U64
  word1 : U64
deriving DecidableEq, Repr, Inhabited

end Sys2Proof
end

