-- ==== Sys2Proof/Syntax.lean ====
section
/-! DEFINITION. The 19 commands of the core, one constructor per row of spec/opcode_table.json
(spec/30_encoding.md R60, R63). A command's only encoded operand is the register index of the accessors; the block,
the value to store and the password come from the operand ports (R62), which are in the machine's state. -/

namespace Sys2Proof

/-- A host command. `idx` is the `IDX` field, a register number used as it stands (R66). -/
inductive Instr where
  | rekey
  | reset
  | enc
  | dec
  | numSeeds
  | getSeed (idx : Nat)
  | setSeed (idx : Nat)
  | getState (idx : Nat)
  | setState (idx : Nat)
  | getPosUp (idx : Nat)
  | setPosUp (idx : Nat)
  | getPosDown (idx : Nat)
  | setPosDown (idx : Nat)
  | getWinA (idx : Nat)
  | setWinA (idx : Nat)
  | getWinB (idx : Nat)
  | setWinB (idx : Nat)
  | getLeap (idx : Nat)
  | setLeap (idx : Nat)
deriving DecidableEq, Repr

/-- The `IDX` operand: the accessors' register index, and 0 in every other command (R61). -/
def Instr.idx : Instr → Nat
  | .rekey | .reset | .enc | .dec | .numSeeds => 0
  | .getSeed i | .setSeed i | .getState i | .setState i | .getPosUp i | .setPosUp i | .getPosDown i
  | .setPosDown i | .getWinA i | .setWinA i | .getWinB i | .setWinB i | .getLeap i | .setLeap i => i

end Sys2Proof
end

