-- ==== Sys2Proof/WellFormed.lean ====
section
/-! DEFINITION. When a command can be written as a command word (spec/30_encoding.md R61, R66). -/

namespace Sys2Proof

/-- The register index fits the 16-bit `IDX` field (R61: bits 15:0). An index of the field that names no register
(`K` or more) is well-formed: it is the silent InvalidIndex of R151. -/
abbrev Instr.WellFormed (i : Instr) : Prop := i.idx < 2 ^ 16

end Sys2Proof
end

