-- ==== Sys2Proof/Decode.lean ====
section
/-! DEFINITION. The command decoder and the encoder, both from the opcode map of spec/30_encoding.md R61, R63, R65.
The decoder is total on 32-bit words and names what it rejects; every rejection is the IllegalCommand of R174. -/

namespace Sys2Proof

/-- Why a word matches no row of the opcode map (R65), in the order R61 has the decoder look. -/
inductive DecodeError where
  /-- `OPC` is outside 0x01..0x05 and 0x10..0x1D. -/
  | unknownOpcode
  /-- `RSV` is not 0. -/
  | reservedNotZero
  /-- `IDX` is not 0 in a command that takes no index. -/
  | indexNotZero
deriving DecidableEq, Repr

/-- `OPC`, bits 31:24 of a command word (R61). -/
def opcField (c : BitVec 32) : Nat := (c.extractLsb' 24 8).toNat

/-- `RSV`, bits 23:16 of a command word (R61). -/
def rsvField (c : BitVec 32) : Nat := (c.extractLsb' 16 8).toNat

/-- `IDX`, bits 15:0 of a command word (R61). -/
def idxField (c : BitVec 32) : Nat := (c.extractLsb' 0 16).toNat

/-- A command without an index: its `IDX` field must be 0 (R61, R65). -/
def plainCommand (i : Instr) (idx : Nat) : Except DecodeError Instr :=
  if idx = 0 then .ok i else .error .indexNotZero

/-- The opcode map (R63): what an `OPC` selects, given the `IDX` field. -/
def selectCommand (opc idx : Nat) : Except DecodeError Instr :=
  match opc with
  | 0x01 => plainCommand .rekey idx
  | 0x02 => plainCommand .reset idx
  | 0x03 => plainCommand .enc idx
  | 0x04 => plainCommand .dec idx
  | 0x05 => plainCommand .numSeeds idx
  | 0x10 => .ok (.getSeed idx)
  | 0x11 => .ok (.setSeed idx)
  | 0x12 => .ok (.getState idx)
  | 0x13 => .ok (.setState idx)
  | 0x14 => .ok (.getPosUp idx)
  | 0x15 => .ok (.setPosUp idx)
  | 0x16 => .ok (.getPosDown idx)
  | 0x17 => .ok (.setPosDown idx)
  | 0x18 => .ok (.getWinA idx)
  | 0x19 => .ok (.setWinA idx)
  | 0x1A => .ok (.getWinB idx)
  | 0x1B => .ok (.setWinB idx)
  | 0x1C => .ok (.getLeap idx)
  | 0x1D => .ok (.setLeap idx)
  | _ => .error .unknownOpcode

/-- The command a 32-bit word stands for, or why it stands for none (R61, R63, R65). -/
def decode (c : BitVec 32) : Except DecodeError Instr :=
  match selectCommand (opcField c) (idxField c) with
  | .error .unknownOpcode => .error .unknownOpcode
  | r => if rsvField c = 0 then r else .error .reservedNotZero

/-- The operation code of a command (R63). -/
def opcOf : Instr → Nat
  | .rekey => 0x01
  | .reset => 0x02
  | .enc => 0x03
  | .dec => 0x04
  | .numSeeds => 0x05
  | .getSeed _ => 0x10
  | .setSeed _ => 0x11
  | .getState _ => 0x12
  | .setState _ => 0x13
  | .getPosUp _ => 0x14
  | .setPosUp _ => 0x15
  | .getPosDown _ => 0x16
  | .setPosDown _ => 0x17
  | .getWinA _ => 0x18
  | .setWinA _ => 0x19
  | .getWinB _ => 0x1A
  | .setWinB _ => 0x1B
  | .getLeap _ => 0x1C
  | .setLeap _ => 0x1D

/-- The command word of a well-formed command: `(OPC << 24) OR idx` (R67), `RSV` 0. -/
def encode (i : Instr) : BitVec 32 :=
  (BitVec.ofNat 32 (opcOf i) <<< 24) ||| BitVec.ofNat 32 i.idx

/-- The command the decoder reads from a table row's `nbits` bits `w`. A command is one 32-bit value, taken as it
stands (R43: there is no byte order), so bit 0 of `w` is bit 0 of `CMD` and the bits above `nbits` are 0. -/
def decodeTableWord (nbits w : Nat) : Option Instr :=
  match decode (BitVec.ofNat 32 (w % 2 ^ nbits)) with
  | .ok i => some i
  | .error _ => none

end Sys2Proof
end

