-- ==== Sys2Proof/Config.lean ====
section
/-! DEFINITION. The open parameters of the hardware (spec/00_scope.md R5 to R9): `N`, `WALSH`, `ILV`, `KS`, `PW`.
`Config` is one instance's choice of them as plain data, with the spec's constraints carried as proofs, so that a
configuration that breaks one cannot be built. The opaque constants below it are the parameters of the machine
whose values the spec does not print: nothing can be proved about their values. -/

namespace Sys2Proof

/-- `PW`, the type of passwords (R9: "password: text"). The core never looks inside one. -/
abbrev Password := List Char

/-- One draw request of the core to the key schedule (R130 item 3). Every bounded request of the spec's rules has
the lower bound 0, so only the inclusive upper bound is kept (R134, R136). -/
inductive KsRequest where
  | u64
  | bounded (hi : Nat)
deriving DecidableEq, Repr

/-- Known answers of an accepted password, each list consumed front to back (R131, R132; the shape of the scripted
`KS` of spec/95_test_vectors.md section 1). -/
structure KsScript where
  u64s : List U64
  bounded : List Nat
deriving DecidableEq, Repr

/-- What is known of the key schedule's reply to one password (R130: a verdict, then the draws). -/
inductive KsEntry where
  | reject
  | accept (script : KsScript)
deriving DecidableEq, Repr

/-- The constants of one instance. They are not architectural state (R26): no command writes them.
`n` is the number of rings (R5); `walsh` the mask table, of which only entry 0 is known (R7); `ilv` the Interleave
permutation, a bijection on the block bit positions and nothing else (R8); `ks` what is known of the key schedule's
answers, the rest being free (R9, R133). -/
structure Config where
  n : Nat
  two_le_n : 2 ≤ n
  n_le : n ≤ 16383
  walsh : Vector Block 128
  walsh_zero : walsh[0] = ⟨0, 0⟩
  ilv : Vector (Fin 128) 128
  ilv_nodup : ilv.toList.Nodup
  ks : List (Password × KsEntry)
deriving DecidableEq, Repr

namespace Config

/-- FREE VALUE (log 2): the entries 1 to 127 of the Walsh table, which no source prints (R7, U12). -/
opaque walshEntry : Fin 128 → Block

/-- FREE VALUE (log 2): the Interleave bit map, open but for being a bijection (R8, U13). -/
opaque ilvPerm : Equiv.Perm (Fin 128)

/-- FREE VALUE (log 3): the key schedule's verdict on a password `Config.ks` does not list (R130, U14). -/
opaque ksAccepts : Password → Bool

/-- FREE VALUE (log 3): the answer to a 64-bit draw, given the earlier requests of the same REKEY (R131, R133). -/
opaque ksU64 : Password → List KsRequest → U64

/-- FREE VALUE (log 3): the answer to a draw bounded by 0 and `hi`, both inclusive, given the earlier requests of the
same REKEY. Its type is the bounded range (R132, U3). -/
opaque ksBounded (pw : Password) (earlier : List KsRequest) (hi : Nat) : Fin (hi + 1)

/-- The Walsh table of the machine at reset: entry 0 is the identity mask, the others are free (R7). -/
def walshTable : Vector Block 128 :=
  Vector.ofFn fun w => if w = 0 then ⟨0, 0⟩ else walshEntry w

/-- The Interleave map of the machine at reset (R8). -/
def ilvTable : Vector (Fin 128) 128 :=
  Vector.ofFn fun j => ilvPerm j

theorem walshTable_zero : walshTable[0] = ⟨0, 0⟩ :=
  Vector.getElem_ofFn (by decide)

theorem ilvTable_nodup : ilvTable.toList.Nodup := by
  have h : ilvTable.toList = List.ofFn fun j => ilvPerm j := Vector.toList_ofFn
  rw [h]
  exact List.nodup_ofFn.mpr ilvPerm.injective

/-- The hardware's own configuration with `n` rings: nothing known of the Walsh entries, the Interleave map and the
key schedule beyond their constraints. -/
def hardware (n : Nat) (lo : 2 ≤ n) (hi : n ≤ 16383) : Config where
  n := n
  two_le_n := lo
  n_le := hi
  walsh := walshTable
  walsh_zero := walshTable_zero
  ilv := ilvTable
  ilv_nodup := ilvTable_nodup
  ks := []

/-- The default instance, `N = 9` (R5). -/
def default : Config := hardware 9 (by decide) (by decide)

end Config

end Sys2Proof
end

