-- ==== Sys2Proof/Machine/State.lean ====
section
/-! DEFINITION. The architectural state of one instance (spec/10_state.md R10), the operand ports, the host's command
stream and the response port around it, the reasons a step can stop, and the state after power-on reset (R24, R190). -/

namespace Sys2Proof.Machine

/-- A global register number `g = 4 * ring + local` of an instance with `n` rings (R11). A link or an index of this
type is resolved by construction (R15, R193). -/
abbrev RegIndex (n : Nat) := Fin (4 * n)

/-- One shift register (R12, R14, R16). The links name registers of the whole cascade. -/
structure Reg (n : Nat) where
  seed : U64
  state : U64
  posUp : BitVec 5
  posDown : BitVec 5
  winA : BitVec 5
  winB : BitVec 5
  leap : BitVec 4
  upLink : RegIndex n
  downLink : RegIndex n
  lastInput : U32
  lastOutput : U32
deriving DecidableEq, Repr

/-- The `K = 4n` registers, by global number (R11). -/
abbrev RegFile (n : Nat) := Vector (Reg n) (4 * n)

/-- The complete architectural state of an instance with `n` rings (R10). `hop` keeps its 16 bits, since the value
0xFFFF marks an entry that is no index (R19). -/
structure Cascade (n : Nat) where
  regs : RegFile n
  cross : Vector (BitVec 2) (n - 1)
  hop : Vector (BitVec 16) (4 * n)
  walshIndex : BitVec 7
  keyed : Bool
deriving DecidableEq, Repr

/-- One command as the host presents it: the command word and the operand ports sampled with it (R60, R62). -/
structure Command where
  cmd : BitVec 32
  din0 : U64
  din1 : U64
  pwd : Password
deriving DecidableEq, Repr

/-- The operand ports as sampled for the command being executed (R62). -/
structure Ports where
  din0 : U64
  din1 : U64
  pwd : Password
deriving DecidableEq, Repr

/-- The response port: 4-bit `STATUS` and two data words (R64). -/
structure Response where
  status : BitVec 4
  dout0 : U64
  dout1 : U64
deriving DecidableEq, Repr

/-- The machine. `cascade` is the architectural state of the spec; `cfg` the instance's constants, carried here
because `step` has no other argument, and written by no step (R26). `pending` is the host's stream of commands not yet
accepted (R47, R181), `ports` the operands of the last one accepted, `resp` the response of the last one completed
(R64), none before the first. -/
structure State where
  cfg : Config
  cascade : Cascade cfg.n
  ports : Ports
  pending : List Command
  resp : Option Response
deriving DecidableEq, Repr

/-- The error conditions of R170. Each is a response of the command that raises it, never a stop of the machine. -/
inductive Condition where
  | keyRejected
  | unkeyedUse
  | illegalCommand
  | invalidIndex
deriving DecidableEq, Repr

/-- Why the machine stops. The spec gives it no stop: every error condition is a response after which the core is
ready for the next command (R178, R179), and the contract violations of R175 cannot be written in this state. Nothing
raises a fault (safe: there is none to lean on). -/
inductive Fault where
deriving DecidableEq, Repr

/-- Why a step has no meaning. -/
inductive Refusal where
  /-- Raised only by an arm of `exec` that has no meaning yet, by the mnemonic of its row (safe). No arm raises it. -/
  | notModelled (mnemonic : String)
deriving DecidableEq, Repr

/-- A register after power-on reset (R24). The links are the default 4-cycle of its ring: up to the next register,
down to the previous one. The transients, which R24 leaves unspecified, are 0 (DESIGN CHOICE, log 4). -/
def Reg.powerOn {n : Nat} (g : RegIndex n) : Reg n where
  seed := 0
  state := 0
  posUp := 0
  posDown := 0
  winA := 0
  winB := 0
  leap := 1
  upLink := ⟨4 * (g / 4) + (g % 4 + 1) % 4, by omega⟩
  downLink := ⟨4 * (g / 4) + (g % 4 + 3) % 4, by omega⟩
  lastInput := 0
  lastOutput := 0

/-- The architectural state after power-on reset (R24, R190). -/
def Cascade.powerOn (n : Nat) : Cascade n where
  regs := Vector.ofFn Reg.powerOn
  cross := Vector.replicate (n - 1) 0
  hop := Vector.replicate (4 * n) 0xFFFF
  walshIndex := 1
  keyed := false

/-- The machine after power-on reset of an instance: idle, no command presented, no response given (R190, R191). The
sampled operand ports are 0 and empty (DESIGN CHOICE, log 5). -/
def State.powerOn (cfg : Config) : State where
  cfg := cfg
  cascade := Cascade.powerOn cfg.n
  ports := ⟨0, 0, []⟩
  pending := []
  resp := none

/-- The machine right after reset: the default instance, `N = 9` (R5), after power-on reset. -/
def State.reset : State := State.powerOn Config.default

end Sys2Proof.Machine
end

