-- ==== Sys2Proof/Machine/Flags.lean ====
section
/-! DEFINITION. The status codes of a response. The core has no arithmetic flags and no condition codes; its only
status bit is `keyed`, and `STATUS` is an output of the command that produced it (spec/10_state.md R22). -/

namespace Sys2Proof.Machine

/-- `OK` (R64). -/
def statusOk : BitVec 4 := 0

/-- The `STATUS` code of a condition (R64, R170). InvalidIndex is silent: its code is `OK` (R172). -/
def Condition.code : Condition → BitVec 4
  | .keyRejected => 1
  | .unkeyedUse => 2
  | .illegalCommand => 3
  | .invalidIndex => statusOk

end Sys2Proof.Machine
end

