-- ==== Sys2Proof/Machine/Operands.lean ====
section
/-! DEFINITION. The parts of a word and of a block, and the operands a command takes from its ports
(spec/00_scope.md section 4, spec/30_encoding.md R62, R66, spec/42_cascade_transforms.md R101). -/

namespace Sys2Proof.Machine

/-- `lo32(w)`, bits 31:0. -/
def lo32 (w : U64) : U32 := w.extractLsb' 0 32

/-- `hi32(w)`, bits 63:32. -/
def hi32 (w : U64) : U32 := w.extractLsb' 32 32

/-- `a ‖ b`: `a` as bits 63..32, `b` as bits 31..0. -/
def cat32 (a b : U32) : U64 := a ++ b

/-- The block as the 128-bit value `word1 ‖ word0` (R101). -/
def blockBits (b : Block) : BitVec 128 := b.word1 ++ b.word0

/-- The block of a 128-bit value: bits 63..0 are `word0`, bits 127..64 are `word1` (R102). -/
def blockOfBits (v : BitVec 128) : Block := ⟨v.extractLsb' 0 64, v.extractLsb' 64 64⟩

/-- The word-wise exclusive OR of two blocks. -/
def blockXor (a b : Block) : Block := ⟨a.word0 ^^^ b.word0, a.word1 ^^^ b.word1⟩

/-- The 64-bit value operand: all of `DIN0` (R66). -/
def valueOperand (s : State) : U64 := s.ports.din0

/-- The value operand of a 5-bit field: `DIN0[4:0]`, the bits above ignored (R66). -/
def positionOperand (s : State) : BitVec 5 := s.ports.din0.extractLsb' 0 5

/-- The value operand of the leap field: `DIN0[3:0]`, the bits above ignored (R66). -/
def leapOperand (s : State) : BitVec 4 := s.ports.din0.extractLsb' 0 4

/-- The block operand: `DIN0` and `DIN1` (R62). -/
def blockOperand (s : State) : Block := ⟨s.ports.din0, s.ports.din1⟩

end Sys2Proof.Machine
end

