-- ==== Sys2Proof/Machine/Ops.lean ====
section
/-! DEFINITION. The named operations over the state that the meanings share: accepting a command, answering it,
raising an error condition, reading and writing one register or one field of it. -/

namespace Sys2Proof.Machine

/-- The global number of local register `l` of ring `i`: `g = 4 * i + l` (R11). -/
def ringReg {n : Nat} (i : Fin n) (l : Fin 4) : RegIndex n := ⟨4 * i + l, by omega⟩

/-- `R[g]`, register number `g`: every read of a register goes through here. -/
def reg {n : Nat} (rf : RegFile n) (g : RegIndex n) : Reg n := rf[g]

/-- Replace register `g` by what `f` makes of it: every write of a register goes through here, but for the commit of
a REKEY, which replaces them all. -/
def updateReg {n : Nat} (rf : RegFile n) (g : RegIndex n) (f : Reg n → Reg n) : RegFile n :=
  rf.set g (f (reg rf g))

/-- `R[g].state <- v`. -/
def setRegState {n : Nat} (rf : RegFile n) (g : RegIndex n) (v : U64) : RegFile n :=
  updateReg rf g fun r => { r with state := v }

/-- Replace the register file. -/
def State.withRegs (s : State) (rf : RegFile s.cfg.n) : State :=
  { s with cascade := { s.cascade with regs := rf } }

/-- The core accepts the command at the head of the host's stream: it leaves the stream and its operand ports are
sampled (R62, R181). -/
def State.accept (s : State) (c : Command) (rest : List Command) : State :=
  { s with pending := rest, ports := ⟨c.din0, c.din1, c.pwd⟩ }

/-- The one response of a command (R64). -/
def State.respond (s : State) (status : BitVec 4) (dout0 dout1 : U64) : State :=
  { s with resp := some ⟨status, dout0, dout1⟩ }

/-- `STATUS = OK`, `DOUT0 = d`, `DOUT1 = 0`. -/
def State.answer (s : State) (d : U64) : State := s.respond statusOk d 0

/-- `STATUS = OK` with the block `b` (R64). -/
def State.answerBlock (s : State) (b : Block) : State := s.respond statusOk b.word0 b.word1

/-- `raise c`: the command ends here. Nothing is saved, nothing is written and control goes nowhere; the response is
the condition's code with both data words 0 (R170, R178, spec/00_scope.md section 4). The core is ready for the next
command, so there is no return operation beside this one (R179). -/
def State.raise (s : State) (c : Condition) : State := s.respond c.code 0 0

/-- A GET: the field zero-extended when the index is in range, and InvalidIndex otherwise, which is silent and
gives 0 (R151, R172). -/
def readField (s : State) (idx : Nat) (f : Reg s.cfg.n → U64) : State :=
  if h : idx < 4 * s.cfg.n then s.answer (f (reg s.cascade.regs ⟨idx, h⟩)) else s.raise .invalidIndex

/-- A SET: the register rewritten by `f` when the index is in range, and InvalidIndex otherwise, which writes nothing
(R151, R172). -/
def writeField (s : State) (idx : Nat) (f : Reg s.cfg.n → Reg s.cfg.n) : State :=
  if h : idx < 4 * s.cfg.n then (s.withRegs (updateReg s.cascade.regs ⟨idx, h⟩ f)).answer 0
  else s.raise .invalidIndex

end Sys2Proof.Machine
end

