-- ==== Sys2Proof/Machine/Accessors.lean ====
section
/-! DEFINITION. NUMSEEDS and the accessors, spec/45_accessors.md R150 to R165. An accessor touches the one field it
names; the index check and its silent failure are `readField` and `writeField` (R151). -/

namespace Sys2Proof.Machine

/-- NUMSEEDS (R150): `K = 4N`, zero-extended. -/
def execNumSeeds (s : State) : Host.Outcome State Fault Refusal :=
  .next (s.answer (BitVec.ofNat 64 (4 * s.cfg.n)))

/-- GETSEED (R152). -/
def execGetSeed (idx : Nat) (s : State) : Host.Outcome State Fault Refusal :=
  .next (readField s idx fun r => r.seed)

/-- SETSEED (R153). -/
def execSetSeed (idx : Nat) (s : State) : Host.Outcome State Fault Refusal :=
  .next (writeField s idx fun r => { r with seed := valueOperand s })

/-- GETSTATE (R154). -/
def execGetState (idx : Nat) (s : State) : Host.Outcome State Fault Refusal :=
  .next (readField s idx fun r => r.state)

/-- SETSTATE (R155). -/
def execSetState (idx : Nat) (s : State) : Host.Outcome State Fault Refusal :=
  .next (writeField s idx fun r => { r with state := valueOperand s })

/-- GETPOSUP (R156). -/
def execGetPosUp (idx : Nat) (s : State) : Host.Outcome State Fault Refusal :=
  .next (readField s idx fun r => r.posUp.setWidth 64)

/-- SETPOSUP (R157). -/
def execSetPosUp (idx : Nat) (s : State) : Host.Outcome State Fault Refusal :=
  .next (writeField s idx fun r => { r with posUp := positionOperand s })

/-- GETPOSDOWN (R158). -/
def execGetPosDown (idx : Nat) (s : State) : Host.Outcome State Fault Refusal :=
  .next (readField s idx fun r => r.posDown.setWidth 64)

/-- SETPOSDOWN (R159). -/
def execSetPosDown (idx : Nat) (s : State) : Host.Outcome State Fault Refusal :=
  .next (writeField s idx fun r => { r with posDown := positionOperand s })

/-- GETWINA (R160). -/
def execGetWinA (idx : Nat) (s : State) : Host.Outcome State Fault Refusal :=
  .next (readField s idx fun r => r.winA.setWidth 64)

/-- SETWINA (R161). -/
def execSetWinA (idx : Nat) (s : State) : Host.Outcome State Fault Refusal :=
  .next (writeField s idx fun r => { r with winA := positionOperand s })

/-- GETWINB (R162). -/
def execGetWinB (idx : Nat) (s : State) : Host.Outcome State Fault Refusal :=
  .next (readField s idx fun r => r.winB.setWidth 64)

/-- SETWINB (R163). -/
def execSetWinB (idx : Nat) (s : State) : Host.Outcome State Fault Refusal :=
  .next (writeField s idx fun r => { r with winB := positionOperand s })

/-- GETLEAP (R164). -/
def execGetLeap (idx : Nat) (s : State) : Host.Outcome State Fault Refusal :=
  .next (readField s idx fun r => r.leap.setWidth 64)

/-- SETLEAP (R165). -/
def execSetLeap (idx : Nat) (s : State) : Host.Outcome State Fault Refusal :=
  .next (writeField s idx fun r => { r with leap := leapOperand s })

end Sys2Proof.Machine
end

