-- ==== Sys2Proof/Machine/Cell.lean ====
section
/-! DEFINITION. The shift register cell, spec/40_shift_register.md R80 to R85. -/

namespace Sys2Proof.Machine

variable {n : Nat}

/-- `getWindow(g, pos)`, `(R[g].state >> pos)[31:0]` (R80). The position has 5 bits, so the contract violation
"out of range" cannot be written (U4). -/
def getWindow (rf : RegFile n) (g : RegIndex n) (pos : BitVec 5) : U32 :=
  lo32 ((reg rf g).state >>> pos.toNat)

/-- `bitsEncode(g, in32)` (R81). -/
def bitsEncode (rf : RegFile n) (g : RegIndex n) (in32 : U32) : U32 × RegFile n :=
  let out := in32 ^^^ lo32 (reg rf g).state
  (out, updateReg rf g fun r => { r with lastInput := in32, lastOutput := out })

/-- `bitsDecode(g, in32)`: the same function under its decode name (R82). -/
def bitsDecode (rf : RegFile n) (g : RegIndex n) (in32 : U32) : U32 × RegFile n :=
  let out := in32 ^^^ lo32 (reg rf g).state
  (out, updateReg rf g fun r => { r with lastInput := in32, lastOutput := out })

/-- The state advance the two clock functions share, fed with the word `folded` (R83). The window positions `posUp`
and `posDown` are the clocking register's own, applied to its neighbours' states. -/
def clockWith (rf : RegFile n) (g : RegIndex n) (folded : U32) : RegFile n :=
  let r := reg rf g
  let fb := getWindow rf g r.winA ^^^ getWindow rf r.upLink r.posUp
  let fb2 := getWindow rf g r.winB ^^^ getWindow rf r.downLink r.posDown
  let combined := (fb ^^^ fb2) ^^^ folded
  setRegState rf g ((combined.setWidth 64 <<< 31) ^^^ (r.state >>> r.leap.toNat))

/-- `clockForward(g)`: folds in `lastInput` (R83). -/
def clockForward (rf : RegFile n) (g : RegIndex n) : RegFile n := clockWith rf g (reg rf g).lastInput

/-- `clockBackward(g)`: folds in `lastOutput` (R84). It is the same advance, not an inverse (C4). -/
def clockBackward (rf : RegFile n) (g : RegIndex n) : RegFile n := clockWith rf g (reg rf g).lastOutput

end Sys2Proof.Machine
end

