-- ==== Sys2Proof/Machine/Ring.lean ====
section
/-! DEFINITION. The register ring, spec/41_register_ring.md R90 to R94. -/

namespace Sys2Proof.Machine

variable {n : Nat}

/-- `RingCodecEnc(i, word0, word1)` (R90, R91): the low and high windows of `word0` through local registers 0 and 1,
those of `word1` through 2 and 3, each output back in the position its input came from. -/
def ringCodecEnc (i : Fin n) (x : Block × RegFile n) : Block × RegFile n :=
  let o0 := bitsEncode x.2 (ringReg i 0) (lo32 x.1.word0)
  let o1 := bitsEncode o0.2 (ringReg i 1) (hi32 x.1.word0)
  let o2 := bitsEncode o1.2 (ringReg i 2) (lo32 x.1.word1)
  let o3 := bitsEncode o2.2 (ringReg i 3) (hi32 x.1.word1)
  (⟨cat32 o1.1 o0.1, cat32 o3.1 o2.1⟩, o3.2)

/-- `RingCodecDec(i, word0, word1)` (R92). -/
def ringCodecDec (i : Fin n) (x : Block × RegFile n) : Block × RegFile n :=
  let o0 := bitsDecode x.2 (ringReg i 0) (lo32 x.1.word0)
  let o1 := bitsDecode o0.2 (ringReg i 1) (hi32 x.1.word0)
  let o2 := bitsDecode o1.2 (ringReg i 2) (lo32 x.1.word1)
  let o3 := bitsDecode o2.2 (ringReg i 3) (hi32 x.1.word1)
  (⟨cat32 o1.1 o0.1, cat32 o3.1 o2.1⟩, o3.2)

/-- `clockAllForward(i)`: registers 0, 1, 2, 3 of ring `i` in that order, each seeing the states the earlier ones
wrote (R93, R46). -/
def clockAllForward (rf : RegFile n) (i : Fin n) : RegFile n :=
  clockForward (clockForward (clockForward (clockForward rf
    (ringReg i 0)) (ringReg i 1)) (ringReg i 2)) (ringReg i 3)

/-- `clockAllBackward(i)`: the same ascending order (R94). -/
def clockAllBackward (rf : RegFile n) (i : Fin n) : RegFile n :=
  clockBackward (clockBackward (clockBackward (clockBackward rf
    (ringReg i 0)) (ringReg i 1)) (ringReg i 2)) (ringReg i 3)

end Sys2Proof.Machine
end

