-- ==== Sys2Proof/Machine/Transforms.lean ====
section
/-! DEFINITION. The cascade's block transforms and the hop pass, spec/42_cascade_transforms.md R100 to R107. -/

namespace Sys2Proof.Machine

/-- `RomRead(w)`: entry `w` of the Walsh table (R42). -/
def romRead (cfg : Config) (w : BitVec 7) : Block := cfg.walsh[w.toNat]'(w.isLt)

/-- `WalshMask(word0, word1)` with the stored index `w` (R100). It is its own inverse. -/
def walshMask (cfg : Config) (w : BitVec 7) (b : Block) : Block := blockXor b (romRead cfg w)

/-- `B[p] <- v` on a 128-bit value. -/
def setBlockBit (B : BitVec 128) (p : Fin 128) (v : Bool) : BitVec 128 :=
  if v then B ||| BitVec.twoPow 128 p else B &&& ~~~ BitVec.twoPow 128 p

/-- `Interleave(word0, word1)`: input bit `j` moves to output position `ILV(j)` (R102). -/
def interleave (cfg : Config) (b : Block) : Block :=
  blockOfBits ((List.finRange 128).foldl
    (fun B' (j : Fin 128) => setBlockBit B' cfg.ilv[j] ((blockBits b).getLsbD j)) 0)

/-- `DeInterleave(word0, word1)`: output bit `j` comes from input position `ILV(j)` (R103). -/
def deInterleave (cfg : Config) (b : Block) : Block :=
  blockOfBits ((List.finRange 128).foldl
    (fun B' (j : Fin 128) => setBlockBit B' j ((blockBits b).getLsbD cfg.ilv[j])) 0)

/-- `CrossPermute(op, word0, word1)`, the table of R105. -/
def crossPermute (op : BitVec 2) (b : Block) : Block :=
  let H0 := hi32 b.word0
  let L0 := lo32 b.word0
  let H1 := hi32 b.word1
  let L1 := lo32 b.word1
  if op = 0 then ⟨cat32 H0 H1, cat32 L0 L1⟩
  else if op = 1 then ⟨cat32 L1 L0, cat32 H1 H0⟩
  else if op = 2 then ⟨cat32 L0 H0, cat32 L1 H1⟩
  else ⟨cat32 L1 H1, cat32 L0 H0⟩

variable {n : Nat}

/-- Exchange the `state` fields of registers `i` and `j`, all 64 bits and nothing else (R107, C3). -/
def swapStates (rf : RegFile n) (i j : RegIndex n) : RegFile n :=
  setRegState (setRegState rf i (reg rf j).state) j (reg rf i).state

/-- One iteration of the hop pass: entry `i` of `hop` is followed when it is a valid index (R19, R107). -/
def hopStep (hop : Vector (BitVec 16) (4 * n)) (rf : RegFile n) (i : RegIndex n) : RegFile n :=
  if h : hop[i].toNat < 4 * n then swapStates rf i ⟨hop[i].toNat, h⟩ else rf

/-- `HopSeeds()`: the entries in index order, later swaps seeing the results of earlier ones (R107, R46). -/
def hopSeeds (hop : Vector (BitVec 16) (4 * n)) (rf : RegFile n) : RegFile n :=
  (List.finRange (4 * n)).foldl (hopStep hop) rf

end Sys2Proof.Machine
end

