-- ==== Sys2Proof/Machine/Block.lean ====
section
/-! DEFINITION. The block commands ENC and DEC, spec/43_block_commands.md R120, R121. -/

namespace Sys2Proof.Machine

variable {n : Nat}

/-- Stages 0 to `m - 1` of the encode direction, each a ring codec and the CrossPermute after it (R120 step 3). -/
def encodeStages (cross : Vector (BitVec 2) (n - 1)) :
    (m : Nat) → m < n → Block × RegFile n → Block × RegFile n
  | 0, _, x => x
  | m + 1, h, x =>
    let y := ringCodecEnc ⟨m, by omega⟩ (encodeStages cross m (by omega) x)
    (crossPermute (cross[m]'(by omega)) y.1, y.2)

/-- Stages `m` down to 1 of the decode direction, each a ring codec and the CrossPermute the encoder used between
that stage and the one before it (R121). -/
def decodeStages (cross : Vector (BitVec 2) (n - 1)) :
    (m : Nat) → m < n → Block × RegFile n → Block × RegFile n
  | 0, _, x => x
  | m + 1, h, x =>
    let y := ringCodecDec ⟨m + 1, h⟩ x
    decodeStages cross m (by omega) (crossPermute (cross[m]'(by omega)) y.1, y.2)

/-- The number of the last ring. -/
def lastRing (cfg : Config) : Fin cfg.n := ⟨cfg.n - 1, by have := cfg.two_le_n; omega⟩

/-- The number of the first ring. -/
def firstRing (cfg : Config) : Fin cfg.n := ⟨0, by have := cfg.two_le_n; omega⟩

/-- Steps 1 to 4 of ENC: the output block, and the registers with their transients written (R120). -/
def encodeBlock (cfg : Config) (c : Cascade cfg.n) (b : Block) : Block × RegFile cfg.n :=
  let masked := interleave cfg (walshMask cfg c.walshIndex b)
  ringCodecEnc (lastRing cfg) (encodeStages c.cross (cfg.n - 1) (lastRing cfg).isLt (masked, c.regs))

/-- The data steps of DEC: the output block, and the registers with their transients written (R121). -/
def decodeBlock (cfg : Config) (c : Cascade cfg.n) (b : Block) : Block × RegFile cfg.n :=
  let y := ringCodecDec (firstRing cfg) (decodeStages c.cross (cfg.n - 1) (lastRing cfg).isLt (b, c.regs))
  (walshMask cfg c.walshIndex (deInterleave cfg y.1), y.2)

/-- Steps 5 and 6 of ENC: every ring clocked forward in ring order, then the hop pass (R120). -/
def advanceForward (hop : Vector (BitVec 16) (4 * n)) (rf : RegFile n) : RegFile n :=
  hopSeeds hop ((List.finRange n).foldl clockAllForward rf)

/-- The last steps of DEC: every ring clocked backward in ascending ring order, then the hop pass (R121, D17). -/
def advanceBackward (hop : Vector (BitVec 16) (4 * n)) (rf : RegFile n) : RegFile n :=
  hopSeeds hop ((List.finRange n).foldl clockAllBackward rf)

/-- ENC (R120): UnkeyedUse before anything is written when `keyed` is 0 (R173). -/
def execEnc (s : State) : Host.Outcome State Fault Refusal :=
  .next (if s.cascade.keyed then
    let out := encodeBlock s.cfg s.cascade (blockOperand s)
    (s.withRegs (advanceForward s.cascade.hop out.2)).answerBlock out.1
  else s.raise .unkeyedUse)

/-- DEC (R121): UnkeyedUse before anything is written when `keyed` is 0 (R173). -/
def execDec (s : State) : Host.Outcome State Fault Refusal :=
  .next (if s.cascade.keyed then
    let out := decodeBlock s.cfg s.cascade (blockOperand s)
    (s.withRegs (advanceBackward s.cascade.hop out.2)).answerBlock out.1
  else s.raise .unkeyedUse)

end Sys2Proof.Machine
end

