-- ==== Sys2Proof/Machine/KeySchedule.lean ====
section
/-! DEFINITION. The key-schedule port and the key derivation, spec/44_key_schedule.md R130 to R136. -/

namespace Sys2Proof.Machine

/-- An open stream of the key schedule: the password it was opened for, the requests made so far (newest first) and
the known answers not yet consumed. It lives inside one REKEY; the core keeps nothing of it (R133). -/
structure KsPort where
  pwd : Password
  earlier : List KsRequest
  u64s : List U64
  bounded : List Nat
deriving DecidableEq, Repr

/-- Forward the password and take the verdict: `none` is Reject, an open stream is Accept (R130 items 1 and 2). A
password the configuration does not list has a free verdict. -/
def openKeySchedule (cfg : Config) (pwd : Password) : Option KsPort :=
  match cfg.ks.lookup pwd with
  | some .reject => none
  | some (.accept script) => some ⟨pwd, [], script.u64s, script.bounded⟩
  | none => if Config.ksAccepts pwd then some ⟨pwd, [], [], []⟩ else none

/-- `KS.u64()` (R131): the next known answer, or a free value when none is known. -/
def drawU64 (p : KsPort) : U64 × KsPort :=
  (p.u64s.head?.getD (Config.ksU64 p.pwd p.earlier),
    { p with earlier := .u64 :: p.earlier, u64s := p.u64s.tail })

/-- `KS.bounded(0, hi)` (R132): the next known answer, or a free value when none is known. The answer's type is the
bounded range; a listed number outside it is not an answer of a conforming key schedule and is passed over for the
free value (U3, log 3). -/
def drawBounded (hi : Nat) (p : KsPort) : Fin (hi + 1) × KsPort :=
  let free := Config.ksBounded p.pwd p.earlier hi
  (match p.bounded with
    | [] => free
    | v :: _ => if h : v < hi + 1 then ⟨v, h⟩ else free,
    { p with earlier := .bounded hi :: p.earlier, bounded := p.bounded.tail })

/-- A bounded draw stored in a `w`-bit field. -/
def drawField (w hi : Nat) (p : KsPort) : BitVec w × KsPort :=
  let d := drawBounded hi p
  (BitVec.ofNat w d.1, d.2)

/-- `k` draws of one kind, stored by ascending index in the order they are made (D14). -/
def drawMany {α : Type} (draw : KsPort → α × KsPort) : (k : Nat) → KsPort → Vector α k × KsPort
  | 0, p => (#v[], p)
  | k + 1, p =>
    let earlier := drawMany draw k p
    let last := draw earlier.2
    (earlier.1.push last.1, last.2)

/-- The loop of RandomPermutation (R134): `m` draws, each taking one entry out of the pool and closing the gap with
the order of the others kept; what is left of the pool at the end comes out in reverse pool order. -/
def permuteLoop {α : Type} : Nat → List α → KsPort → List α × KsPort
  | 0, pool, p => (pool.reverse, p)
  | _ + 1, [], p => ([], p)
  | m + 1, x :: xs, p =>
    let r := drawBounded xs.length p
    let rest := permuteLoop m ((x :: xs).eraseIdx r.1) r.2
    ((x :: xs).get r.1 :: rest.1, rest.2)

/-- Every pool entry comes out once, so the result has the pool's length. -/
theorem permuteLoop_length {α : Type} (m : Nat) (pool : List α) (p : KsPort) :
    (permuteLoop m pool p).1.length = pool.length := by
  induction m generalizing pool p with
  | zero => simp [permuteLoop]
  | succ m ih =>
    cases pool with
    | nil => rfl
    | cons x xs =>
      have h := (drawBounded xs.length p).1.isLt
      simp [permuteLoop, ih, List.length_eraseIdx]
      omega

/-- `RandomPermutation(k)` (R134): the pool starts as 0..k-1 ascending, and `k - 2` draws are made. -/
def randomPermutation (k : Nat) (p : KsPort) : Vector (Fin k) k × KsPort :=
  let out := permuteLoop (k - 2) (List.finRange k) p
  (⟨out.1.toArray, by simp [out, permuteLoop_length]⟩, out.2)

/-- What one REKEY draws, before the commit (R136). -/
structure KeyMaterial (n : Nat) where
  seed : Vector U64 (4 * n)
  cross : Vector (BitVec 2) (n - 1)
  hop : Vector (RegIndex n) (4 * n)
  upLink : Vector (RegIndex n) (4 * n)
  downLink : Vector (RegIndex n) (4 * n)
  posUp : Vector (BitVec 5) (4 * n)
  posDown : Vector (BitVec 5) (4 * n)
  winA : Vector (BitVec 5) (4 * n)
  winB : Vector (BitVec 5) (4 * n)
  leap : Vector (BitVec 4) (4 * n)
  walshDraw : BitVec 7
deriving DecidableEq, Repr

/-- The draws of one REKEY, steps (a) to (k) in exactly this order (R136), and the port after them. -/
def drawKey (n : Nat) (p : KsPort) : KeyMaterial n × KsPort :=
  let a := drawMany drawU64 (4 * n) p
  let b := drawMany (drawField 2 3) (n - 1) a.2
  let c := randomPermutation (4 * n) b.2
  let d := randomPermutation (4 * n) c.2
  let e := randomPermutation (4 * n) d.2
  let f := drawMany (drawField 5 31) (4 * n) e.2
  let g := drawMany (drawField 5 31) (4 * n) f.2
  let h := drawMany (drawField 5 31) (4 * n) g.2
  let i := drawMany (drawField 5 31) (4 * n) h.2
  let j := drawMany (drawField 4 14) (4 * n) i.2
  let k := drawField 7 127 j.2
  (⟨a.1, b.1, c.1, d.1, e.1, f.1, g.1, h.1, i.1, j.1, k.1⟩, k.2)

/-- Register `g` after the commit: everything but the transients is replaced, and the state is the new seed
(R136, "then resets states to seeds"). -/
def commitReg {n : Nat} (k : KeyMaterial n) (old : RegFile n) (g : RegIndex n) : Reg n where
  seed := k.seed[g]
  state := k.seed[g]
  posUp := k.posUp[g]
  posDown := k.posDown[g]
  winA := k.winA[g]
  winB := k.winB[g]
  leap := k.leap[g]
  upLink := k.upLink[g]
  downLink := k.downLink[g]
  lastInput := (reg old g).lastInput
  lastOutput := (reg old g).lastOutput

/-- The commit of a REKEY (R136): draw 0 of step (k) is remapped to Walsh index 1, and the instance becomes keyed. -/
def commitKey {n : Nat} (k : KeyMaterial n) (c : Cascade n) : Cascade n where
  regs := Vector.ofFn (commitReg k c.regs)
  cross := k.cross
  hop := k.hop.map fun j : RegIndex n => BitVec.ofNat 16 j.val
  walshIndex := if k.walshDraw = 0 then 1 else k.walshDraw
  keyed := true

end Sys2Proof.Machine
end

