-- ==== Sys2Proof/Machine/Key.lean ====
section
/-! DEFINITION. The commands that act on the instance as a whole: REKEY and RESET, spec/44_key_schedule.md R136, R138. -/

namespace Sys2Proof.Machine

/-- REKEY (R136). A rejected password is KeyRejected, before any write (R171). -/
def execRekey (s : State) : Host.Outcome State Fault Refusal :=
  .next (match openKeySchedule s.cfg s.ports.pwd with
    | none => s.raise .keyRejected
    | some p => { s with cascade := commitKey (drawKey s.cfg.n p).1 s.cascade }.answer 0)

/-- Every state back to its seed, by ascending register number (R138). -/
def rewindStates {n : Nat} (rf : RegFile n) : RegFile n :=
  (List.finRange (4 * n)).foldl (fun rf g => setRegState rf g (reg rf g).seed) rf

/-- RESET (R138): total, keyed or not. It is not a power-on reset (R194). -/
def execReset (s : State) : Host.Outcome State Fault Refusal :=
  .next ((s.withRegs (rewindStates s.cascade.regs)).answer 0)

end Sys2Proof.Machine
end

