-- ==== Sys2Proof/Machine/Dispatch.lean ====
section
/-! DEFINITION. What each command does: one arm per constructor of Instr, each one direct call of its meaning. -/

namespace Sys2Proof.Machine

def exec (i : Instr) (s : State) : Host.Outcome State Fault Refusal :=
  match i with
  | .rekey => Sys2Proof.Machine.execRekey s
  | .reset => Sys2Proof.Machine.execReset s
  | .enc => Sys2Proof.Machine.execEnc s
  | .dec => Sys2Proof.Machine.execDec s
  | .numSeeds => Sys2Proof.Machine.execNumSeeds s
  | .getSeed idx => Sys2Proof.Machine.execGetSeed idx s
  | .setSeed idx => Sys2Proof.Machine.execSetSeed idx s
  | .getState idx => Sys2Proof.Machine.execGetState idx s
  | .setState idx => Sys2Proof.Machine.execSetState idx s
  | .getPosUp idx => Sys2Proof.Machine.execGetPosUp idx s
  | .setPosUp idx => Sys2Proof.Machine.execSetPosUp idx s
  | .getPosDown idx => Sys2Proof.Machine.execGetPosDown idx s
  | .setPosDown idx => Sys2Proof.Machine.execSetPosDown idx s
  | .getWinA idx => Sys2Proof.Machine.execGetWinA idx s
  | .setWinA idx => Sys2Proof.Machine.execSetWinA idx s
  | .getWinB idx => Sys2Proof.Machine.execGetWinB idx s
  | .setWinB idx => Sys2Proof.Machine.execSetWinB idx s
  | .getLeap idx => Sys2Proof.Machine.execGetLeap idx s
  | .setLeap idx => Sys2Proof.Machine.execSetLeap idx s

end Sys2Proof.Machine
end

