-- ==== Sys2Proof/Machine/Step.lean ====
section
/-! DEFINITION. One step of the machine: the core takes the next command of the host's stream, executes it to
completion and gives its response (spec/20_memory.md R45, R47, spec/30_encoding.md R60). -/

namespace Sys2Proof.Machine

/-- One step. With no command presented the core is idle and nothing changes (R191; log 6). A word the decoder
rejects is IllegalCommand, reported before anything else about the command (R174, R177). -/
def step (s : State) : Host.Outcome State Fault Refusal :=
  match s.pending with
  | [] => .next s
  | c :: rest =>
    match decode c.cmd with
    | .ok i => exec i (s.accept c rest)
    | .error _ => .next ((s.accept c rest).raise .illegalCommand)

/-- `s` with the command word `w` presented next, its operand ports 0 and empty (R67, the `.word` form; log 6). -/
def State.withFetchWord (s : State) (nbits w : Nat) : State :=
  { s with pending := ⟨BitVec.ofNat 32 (w % 2 ^ nbits), 0, 0, []⟩ :: s.pending }

end Sys2Proof.Machine
end

