-- ==== Sys2Proof/Safety.lean ====
section
/-! DEFINITION. The terms the statements use: the opcode map as the spec prints it, what the key schedule says of a
password, the invariant of every reachable state, lockstep, and an independent closed form of the block commands
(spec/41 R91, spec/43 R120 to R123) to hold the machine against. -/

namespace Sys2Proof.Safety

open Sys2Proof.Machine

/-- The rows of the opcode map (R63) as `match`, `mask` and the command a matching word with index field `idx`
stands for. -/
def opcodeRows : List (BitVec 32 × BitVec 32 × (Nat → Instr)) :=
  [ (0x01000000, 0xFFFFFFFF, fun _ => .rekey),
    (0x02000000, 0xFFFFFFFF, fun _ => .reset),
    (0x03000000, 0xFFFFFFFF, fun _ => .enc),
    (0x04000000, 0xFFFFFFFF, fun _ => .dec),
    (0x05000000, 0xFFFFFFFF, fun _ => .numSeeds),
    (0x10000000, 0xFFFF0000, .getSeed),
    (0x11000000, 0xFFFF0000, .setSeed),
    (0x12000000, 0xFFFF0000, .getState),
    (0x13000000, 0xFFFF0000, .setState),
    (0x14000000, 0xFFFF0000, .getPosUp) ] ++
  [ (0x15000000, 0xFFFF0000, .setPosUp),
    (0x16000000, 0xFFFF0000, .getPosDown),
    (0x17000000, 0xFFFF0000, .setPosDown),
    (0x18000000, 0xFFFF0000, .getWinA),
    (0x19000000, 0xFFFF0000, .setWinA),
    (0x1A000000, 0xFFFF0000, .getWinB),
    (0x1B000000, 0xFFFF0000, .setWinB),
    (0x1C000000, 0xFFFF0000, .getLeap),
    (0x1D000000, 0xFFFF0000, .setLeap) ]

/-- The key schedule rejects the password: it is listed as rejected, or it is not listed and its free verdict is
Reject (R130). -/
abbrev Rejects (cfg : Config) (pwd : Password) : Prop :=
  cfg.ks.lookup pwd = some .reject ∨ cfg.ks.lookup pwd = none ∧ Config.ksAccepts pwd = false

/-- The key schedule accepts the password (R130). -/
abbrev Accepts (cfg : Config) (pwd : Password) : Prop :=
  (∃ script, cfg.ks.lookup pwd = some (.accept script)) ∨
    cfg.ks.lookup pwd = none ∧ Config.ksAccepts pwd = true

/-- RandomPermutation on a given list of draws (R134): each draw takes an entry out of the pool, the rest comes out
in reverse pool order. -/
def permutationOf (draws pool : List Nat) : List Nat :=
  match draws with
  | [] => pool.reverse
  | r :: rs =>
    match pool[r]? with
    | some x => x :: permutationOf rs (pool.eraseIdx r)
    | none => []

/-- The requests of one `RandomPermutation(k)`: `k - 2` draws bounded by `k - 1` down to 2 (R134). -/
def permutationRequests (k : Nat) : List KsRequest :=
  (List.range (k - 2)).map fun t => .bounded (k - 1 - t)

/-- The requests of one REKEY, steps (a) to (k) (R136). -/
def keyRequests (n : Nat) : List KsRequest :=
  List.replicate (4 * n) .u64 ++ List.replicate (n - 1) (.bounded 3) ++
    permutationRequests (4 * n) ++ permutationRequests (4 * n) ++ permutationRequests (4 * n) ++
    List.replicate (4 * (4 * n)) (.bounded 31) ++ List.replicate (4 * n) (.bounded 14) ++ [.bounded 127]

/-- The key schedule accepts the password, and `script` is what is known of its answers: nothing when the password is
not listed (log 3). -/
abbrev OpensWith (cfg : Config) (pwd : Password) (script : KsScript) : Prop :=
  cfg.ks.lookup pwd = some (.accept script) ∨
    cfg.ks.lookup pwd = none ∧ Config.ksAccepts pwd = true ∧ script = ⟨[], []⟩

/-- The answer to 64-bit request number `g` of a REKEY: the known one, or else the free value after the `g` earlier
requests, which are all 64-bit ones (R131, R133; log 3). -/
def u64Answer (pwd : Password) (script : KsScript) (g : Nat) : U64 :=
  script.u64s[g]?.getD (Config.ksU64 pwd (List.replicate g .u64))

/-- The answer to bounded request number `k` of a REKEY with `n` rings, bounded by `hi`: the known one when it is in
range, or else the free value after the `4 * n + k` earlier requests, newest first (R132, R133; log 3). -/
def boundedAnswer (pwd : Password) (script : KsScript) (n k hi : Nat) : Nat :=
  match script.bounded[k]?.filter (· ≤ hi) with
  | some v => v
  | none => (Config.ksBounded pwd ((keyRequests n).take (4 * n + k)).reverse hi).val

/-- What holds of every state a run from power-on reaches (R15, R19, R21, R24, R64, R137): the Walsh index is never 0;
both link tables are permutations of the register numbers; `hop` is one too once the instance is keyed; before that
the control state is the power-on one; and the response port holds one of the four codes, with zero data on an error. -/
structure Inv (s : State) : Prop where
  walshIndex_pos : s.cascade.walshIndex ≠ 0
  upLinks_nodup : (s.cascade.regs.toList.map (·.upLink)).Nodup
  downLinks_nodup : (s.cascade.regs.toList.map (·.downLink)).Nodup
  keyed_hop : s.cascade.keyed = true →
    s.cascade.hop.toList.Nodup ∧ ∀ h ∈ s.cascade.hop.toList, h.toNat < 4 * s.cfg.n
  unkeyed_control : s.cascade.keyed = false →
    (∀ x ∈ s.cascade.cross.toList, x = 0) ∧ (∀ h ∈ s.cascade.hop.toList, h = 0xFFFF) ∧
      s.cascade.walshIndex = 1 ∧
      ∀ g : RegIndex s.cfg.n,
        (reg s.cascade.regs g).upLink.val = 4 * (g / 4) + (g % 4 + 1) % 4 ∧
        (reg s.cascade.regs g).downLink.val = 4 * (g / 4) + (g % 4 + 3) % 4
  response : ∀ r, s.resp = some r →
    r.status.toNat ≤ 3 ∧ (r.status ≠ 0 → r.dout0 = 0 ∧ r.dout1 = 0)

/-- `s` with every transient put to 0: two states equal under it differ in nothing a command can show (R16). -/
def eraseTransients (s : State) : State :=
  s.withRegs (s.cascade.regs.map fun r => { r with lastInput := 0, lastOutput := 0 })

/-- `s` with every seed put to 0. -/
def eraseSeeds (s : State) : State :=
  s.withRegs (s.cascade.regs.map fun r => { r with seed := 0 })

/-- Every register state is its seed: the standard point right after REKEY or RESET (R197). -/
def AtSeeds (s : State) : Prop := ∀ g : RegIndex s.cfg.n, (reg s.cascade.regs g).state = (reg s.cascade.regs g).seed

/-- Two cascades in lockstep (R123): the same control state, and registers equal in all but seed and transients. -/
def Lockstep {n : Nat} (a b : Cascade n) : Prop :=
  a.cross = b.cross ∧ a.hop = b.hop ∧ a.walshIndex = b.walshIndex ∧ a.keyed = b.keyed ∧
    ∀ g : RegIndex n,
      { reg a.regs g with seed := 0, lastInput := 0, lastOutput := 0 } =
        { reg b.regs g with seed := 0, lastInput := 0, lastOutput := 0 }

/-- The four 32-bit windows of a block, in the order of the registers they are routed through (R90). -/
def window (b : Block) (l : Fin 4) : U32 :=
  match l with
  | 0 => lo32 b.word0
  | 1 => hi32 b.word0
  | 2 => lo32 b.word1
  | 3 => hi32 b.word1

/-- The keystream of ring `i`: the low halves of its four states (R91, closed form). -/
def keystream {n : Nat} (rf : RegFile n) (i : Fin n) : Block :=
  ⟨cat32 (lo32 (reg rf (ringReg i 1)).state) (lo32 (reg rf (ringReg i 0)).state),
   cat32 (lo32 (reg rf (ringReg i 3)).state) (lo32 (reg rf (ringReg i 2)).state)⟩

/-- The block that enters ring `i` in the encode direction, `b` entering ring 0 (R120 step 3). -/
def encodeInput {n : Nat} (c : Cascade n) (b : Block) : (i : Nat) → i < n → Block
  | 0, _ => b
  | i + 1, h =>
    crossPermute (c.cross[i]'(by omega)) (blockXor (encodeInput c b i (by omega)) (keystream c.regs ⟨i, by omega⟩))

/-- The block that enters ring `n - 1 - k` in the decode direction, `b` entering ring `n - 1` (R121). -/
def decodeInput {n : Nat} (c : Cascade n) (b : Block) : (k : Nat) → k < n → Block
  | 0, _ => b
  | k + 1, h =>
    crossPermute (c.cross[n - 1 - (k + 1)]'(by omega))
      (blockXor (decodeInput c b k (by omega)) (keystream c.regs ⟨n - 1 - k, by omega⟩))

/-- The new state of register `r` when it clocks with its neighbours' states `up` and `down` and the folded word
`folded` (R83). -/
def clockValue {n : Nat} (r : Reg n) (up down : U64) (folded : U32) : U64 :=
  ((lo32 (r.state >>> r.winA.toNat) ^^^ lo32 (up >>> r.posUp.toNat) ^^^
    (lo32 (r.state >>> r.winB.toNat) ^^^ lo32 (down >>> r.posDown.toNat)) ^^^ folded).setWidth 64 <<< 31) ^^^
    (r.state >>> r.leap.toNat)

/-- `x` is what one sequential clock pass over all registers leaves: register `g` reads the new state of a neighbour
with a lower number and the old state of any other, itself included (R93, R46). -/
def IsClockPass {n : Nat} (rf : RegFile n) (folded : RegIndex n → U32) (x : RegIndex n → U64) : Prop :=
  ∀ g, x g = clockValue (reg rf g)
    (if (reg rf g).upLink < g then x (reg rf g).upLink else (reg rf (reg rf g).upLink).state)
    (if (reg rf g).downLink < g then x (reg rf g).downLink else (reg rf (reg rf g).downLink).state)
    (folded g)

/-- Where the hop pass takes each register's state from: a permutation fixed by `hop` alone (R107, R108). -/
def hopOrder {n : Nat} (hop : Vector (BitVec 16) (4 * n)) : Equiv.Perm (RegIndex n) :=
  (List.finRange (4 * n)).foldl
    (fun σ i => if h : hop[i].toNat < 4 * n then σ * Equiv.swap i ⟨hop[i].toNat, h⟩ else σ) 1

/-- The ring and the local number of a register (R11). -/
def ringOf {n : Nat} (g : RegIndex n) : Fin n := ⟨g / 4, by omega⟩

/-- The local number of a register in its ring (R11). -/
def localOf {n : Nat} (g : RegIndex n) : Fin 4 := ⟨g % 4, by omega⟩

/-- One ENC or DEC of block `b`: the state after it and the output block, when it answers OK. -/
def runBlock (i : Instr) (s : State) (b : Block) : Option (State × Block) :=
  match exec i { s with ports := ⟨b.word0, b.word1, s.ports.pwd⟩ } with
  | .next t =>
    match t.resp with
    | some r => if r.status = 0 then some (t, ⟨r.dout0, r.dout1⟩) else none
    | none => none
  | _ => none

/-- A sequence of blocks through one instance, and the output blocks in order. -/
def runBlocks (i : Instr) (s : State) : List Block → Option (State × List Block)
  | [] => some (s, [])
  | b :: bs =>
    match runBlock i s b with
    | some (t, c) =>
      match runBlocks i t bs with
      | some (u, cs) => some (u, c :: cs)
      | none => none
    | none => none

/-- A mixed sequence of ENC (`true`) and DEC (`false`) commands through one instance. -/
def runMixed (s : State) : List (Bool × Block) → Option State
  | [] => some s
  | (e, b) :: rest =>
    match runBlock (if e then .enc else .dec) s b with
    | some (t, _) => runMixed t rest
    | none => none

end Sys2Proof.Safety
end

