-- ==== Sys2Proof/Certificates/Slice0/Obligations.lean ====
section
/-! DEFINITION. The statements about the model, each with the rule of spec/ it formalises. They are stated of every
state, hence of every number of rings, Walsh table, Interleave map and key schedule a `Config` admits. -/

open Sys2Proof Sys2Proof.Machine Sys2Proof.Safety

/-! ## Encoding -/

/-- R61, R63, R67: every command with an encodable index is read back from its word, index and all. -/
def Obligations.DecodeEncodeRoundTrip : Prop :=
  ∀ i : Instr, i.WellFormed → decode (encode i) = .ok i

/-- R61, R63, R65: a word that decodes is the one word of its command, and the command is well-formed. -/
def Obligations.EncodeDecodeRoundTrip : Prop :=
  ∀ (w : BitVec 32) (i : Instr), decode w = .ok i → i.WellFormed ∧ encode i = w

/-- R63: a word selects a row when `c AND mask = match`; the row's command takes the word's low 16 bits as its index;
no word matches two rows. -/
def Obligations.DecodeFollowsTheOpcodeMap : Prop :=
  (∀ (w : BitVec 32) (i : Instr), decode w = .ok i ↔
    ∃ row ∈ opcodeRows, w &&& row.2.1 = row.1 ∧ i = row.2.2 (w.extractLsb' 0 16).toNat) ∧
  opcodeRows.Pairwise fun r r' => ∀ w : BitVec 32, ¬ (w &&& r.2.1 = r.1 ∧ w &&& r'.2.1 = r'.1)

/-- R65, R174: the illegal words are exactly those with `OPC` outside the map, with `RSV` not 0, or with `OPC` in
0x01..0x05 and `IDX` not 0; presenting one changes no state and answers `ERR_ILLEGAL` with zero data (the spec's own
decision D12). -/
def Obligations.IllegalWordsAreErrIllegal : Prop :=
  let illegal : BitVec 32 → Prop := fun w =>
    ((w >>> 24).toNat ∉ [0x01, 0x02, 0x03, 0x04, 0x05] ∧ ((w >>> 24).toNat < 0x10 ∨ 0x1D < (w >>> 24).toNat)) ∨
    (w >>> 16).setWidth 8 ≠ 0#8 ∨
    ((w >>> 24).toNat ∈ [0x01, 0x02, 0x03, 0x04, 0x05] ∧ w.setWidth 16 ≠ 0#16)
  (∀ w, (∃ e, decode w = .error e) ↔ illegal w) ∧
  ∀ (s : State) (c : Command) (rest : List Command), s.pending = c :: rest → illegal c.cmd →
    step s = .next { s with pending := rest, ports := ⟨c.din0, c.din1, c.pwd⟩, resp := some ⟨3, 0, 0⟩ }

/-- spec/95_test_vectors.md section 3.6 and spec/opcode_table.json: words written out from the map, at least one of
every class of command (R69), decode to their commands, and words that match no row are rejected. The names of the
reasons to reject are the model's own and not the spec's (log 12), which says of such a word only that it is illegal. -/
def Obligations.WordsDecodeAsPrinted : Prop :=
  decode 0x01000000 = .ok .rekey ∧ decode 0x02000000 = .ok .reset ∧ decode 0x03000000 = .ok .enc ∧
  decode 0x04000000 = .ok .dec ∧ decode 0x05000000 = .ok .numSeeds ∧ decode 0x1000FFFF = .ok (.getSeed 0xFFFF) ∧
  decode 0x13000008 = .ok (.setState 8) ∧ decode 0x14000000 = .ok (.getPosUp 0) ∧
  decode 0x1D00FFFF = .ok (.setLeap 0xFFFF) ∧ decode 0x05000001 = .error .indexNotZero ∧
  decode 0x0100FFFF = .error .indexNotZero ∧ decode 0x10010000 = .error .reservedNotZero ∧
  decode 0x00000000 = .error .unknownOpcode ∧ decode 0x1E000000 = .error .unknownOpcode

/-! ## The step -/

/-- R47, R60, R62: the command at the head of the host's stream, once decoded, is what the step executes, with its
operand ports sampled and the command taken off the stream. -/
def Obligations.StepExecutesTheDecodedCommand : Prop :=
  ∀ (s : State) (c : Command) (rest : List Command) (i : Instr), s.pending = c :: rest → decode c.cmd = .ok i →
    step s = exec i { s with pending := rest, ports := ⟨c.din0, c.din1, c.pwd⟩ }

/-- R191 (the model's choice of a step, log 6): with no command presented the core waits and nothing changes. -/
def Obligations.IdleCoreWaits : Prop :=
  ∀ s : State, s.pending = [] → step s = .next s

/-- R64, R202: every command presented completes in its step and gives exactly one response; the stream loses that
command and the constants of the instance stay. -/
def Obligations.EveryCommandCompletesWithAResponse : Prop :=
  ∀ (s : State) (c : Command) (rest : List Command), s.pending = c :: rest →
    ∃ (a : Cascade s.cfg.n) (r : Response),
      step s = .next { cfg := s.cfg, cascade := a, ports := ⟨c.din0, c.din1, c.pwd⟩, pending := rest, resp := some r }

/-! ## NUMSEEDS and the accessors -/

/-- R150: NUMSEEDS answers `K = 4N`, which fits 32 bits, zero-extended (the spec's decision D28), and changes nothing,
keyed or not. -/
def Obligations.NumSeedsAnswersFourN : Prop :=
  ∀ s : State, 4 * s.cfg.n < 2 ^ 32 ∧
    exec .numSeeds s = .next { s with resp := some ⟨0, BitVec.ofNat 64 (4 * s.cfg.n), 0⟩ }

/-- R152, R154: GETSEED and GETSTATE answer the field of an index in range, 0 for any other index (the spec's decision
D11), and change nothing but the response. -/
def Obligations.GetSeedAndGetStateAnswerTheField : Prop :=
  ∀ (s : State) (idx : Nat),
    (∀ h : idx < 4 * s.cfg.n,
      exec (.getSeed idx) s = .next { s with resp := some ⟨0, (reg s.cascade.regs ⟨idx, h⟩).seed, 0⟩ } ∧
      exec (.getState idx) s = .next { s with resp := some ⟨0, (reg s.cascade.regs ⟨idx, h⟩).state, 0⟩ }) ∧
    (4 * s.cfg.n ≤ idx →
      exec (.getSeed idx) s = .next { s with resp := some ⟨0, 0, 0⟩ } ∧
      exec (.getState idx) s = .next { s with resp := some ⟨0, 0, 0⟩ })

/-- R156, R158, R160, R162, R164: the GETs of the five parameters answer the field zero-extended, 0 for an index out of
range (the spec's decision D11), and change nothing but the response. -/
def Obligations.GetParametersAnswerTheFieldZeroExtended : Prop :=
  ∀ (s : State) (idx : Nat),
    (∀ h : idx < 4 * s.cfg.n, let r := reg s.cascade.regs ⟨idx, h⟩
      exec (.getPosUp idx) s = .next { s with resp := some ⟨0, BitVec.ofNat 64 r.posUp.toNat, 0⟩ } ∧
      exec (.getPosDown idx) s = .next { s with resp := some ⟨0, BitVec.ofNat 64 r.posDown.toNat, 0⟩ } ∧
      exec (.getWinA idx) s = .next { s with resp := some ⟨0, BitVec.ofNat 64 r.winA.toNat, 0⟩ } ∧
      exec (.getWinB idx) s = .next { s with resp := some ⟨0, BitVec.ofNat 64 r.winB.toNat, 0⟩ } ∧
      exec (.getLeap idx) s = .next { s with resp := some ⟨0, BitVec.ofNat 64 r.leap.toNat, 0⟩ }) ∧
    (4 * s.cfg.n ≤ idx →
      ∀ i ∈ [Instr.getPosUp idx, .getPosDown idx, .getWinA idx, .getWinB idx, .getLeap idx],
        exec i s = .next { s with resp := some ⟨0, 0, 0⟩ })

/-- R153, R155: SETSEED and SETSTATE store all 64 bits of `DIN0` in the one field of the one register the index names,
nothing when it names none, and answer OK; every other field, register and piece of state is unchanged. -/
def Obligations.SetSeedAndSetStateWriteOneField : Prop :=
  ∀ (s : State) (idx : Nat), ∃ seeds states : RegFile s.cfg.n,
    exec (.setSeed idx) s =
      .next { s with cascade := { s.cascade with regs := seeds }, resp := some ⟨0, 0, 0⟩ } ∧
    exec (.setState idx) s =
      .next { s with cascade := { s.cascade with regs := states }, resp := some ⟨0, 0, 0⟩ } ∧
    ∀ g : RegIndex s.cfg.n, let r := reg s.cascade.regs g
      reg seeds g = (if g.val = idx then { r with seed := s.ports.din0 } else r) ∧
      reg states g = (if g.val = idx then { r with state := s.ports.din0 } else r)

/-- R157, R159, R161, R163, R165: the SETs of the five parameters store `DIN0[4:0]` (for the leap `DIN0[3:0]`; the
truncation is the spec's decision D9) in the one field of the one register the index names, nothing when it names none,
and answer OK; all else is unchanged. -/
def Obligations.SetParametersWriteOneTruncatedField : Prop :=
  ∀ (s : State) (idx : Nat), ∃ pu pd wa wb lp : RegFile s.cfg.n,
    exec (.setPosUp idx) s = .next { s with cascade := { s.cascade with regs := pu }, resp := some ⟨0, 0, 0⟩ } ∧
    exec (.setPosDown idx) s = .next { s with cascade := { s.cascade with regs := pd }, resp := some ⟨0, 0, 0⟩ } ∧
    exec (.setWinA idx) s = .next { s with cascade := { s.cascade with regs := wa }, resp := some ⟨0, 0, 0⟩ } ∧
    exec (.setWinB idx) s = .next { s with cascade := { s.cascade with regs := wb }, resp := some ⟨0, 0, 0⟩ } ∧
    exec (.setLeap idx) s = .next { s with cascade := { s.cascade with regs := lp }, resp := some ⟨0, 0, 0⟩ } ∧
    ∀ g : RegIndex s.cfg.n, let r := reg s.cascade.regs g
      reg pu g = (if g.val = idx then { r with posUp := BitVec.ofNat 5 s.ports.din0.toNat } else r) ∧
      reg pd g = (if g.val = idx then { r with posDown := BitVec.ofNat 5 s.ports.din0.toNat } else r) ∧
      reg wa g = (if g.val = idx then { r with winA := BitVec.ofNat 5 s.ports.din0.toNat } else r) ∧
      reg wb g = (if g.val = idx then { r with winB := BitVec.ofNat 5 s.ports.din0.toNat } else r) ∧
      reg lp g = (if g.val = idx then { r with leap := BitVec.ofNat 4 s.ports.din0.toNat } else r)

/-- R66, R151: what a GET answers after the SET of the same field and index is the operand truncated to the field (the
spec's decision D9). -/
def Obligations.GetAfterSetAnswersTheTruncatedOperand : Prop :=
  ∀ (s : State) (idx : Nat) (set get : Instr) (mask : U64), idx < 4 * s.cfg.n →
    (set, get, mask) ∈ [(Instr.setSeed idx, Instr.getSeed idx, 0xFFFFFFFFFFFFFFFF#64),
      (.setState idx, .getState idx, 0xFFFFFFFFFFFFFFFF#64), (.setPosUp idx, .getPosUp idx, 31#64),
      (.setPosDown idx, .getPosDown idx, 31#64), (.setWinA idx, .getWinA idx, 31#64),
      (.setWinB idx, .getWinB idx, 31#64), (.setLeap idx, .getLeap idx, 15#64)] →
    ∃ t, exec set s = .next t ∧ exec get t = .next { t with resp := some ⟨0, s.ports.din0 &&& mask, 0⟩ }

/-! ## REKEY and RESET -/

/-- R138: RESET, keyed or not, copies every seed into its state, answers OK and touches nothing else; RESET twice is
RESET once. -/
def Obligations.ResetRewindsEveryStateToItsSeed : Prop :=
  ∀ s : State, ∃ rf : RegFile s.cfg.n,
    let t : State := { s with cascade := { s.cascade with regs := rf }, resp := some ⟨0, 0, 0⟩ }
    exec .reset s = .next t ∧ exec .reset t = .next t ∧
      ∀ g : RegIndex s.cfg.n, reg rf g = { reg s.cascade.regs g with state := (reg s.cascade.regs g).seed }

/-- R171: a REKEY whose password the key schedule rejects answers `ERR_KEY_REJECTED` with zero data and writes no
state, so an instance that was keyed keeps its old key and position. -/
def Obligations.RejectedRekeyChangesNothing : Prop :=
  ∀ s : State, Rejects s.cfg s.ports.pwd → exec .rekey s = .next { s with resp := some ⟨1, 0, 0⟩ }

/-- R137: after a REKEY whose password the key schedule accepts, every link is a register number and each link table a
permutation of them, `hop` is a permutation of 0..K-1, the fields are in their ranges, the Walsh index is not 0, every
state is its seed, and the instance is keyed; the transients, and everything outside the architectural state but the
response, are as before. -/
def Obligations.AcceptedRekeyEstablishesTheKey : Prop :=
  ∀ s : State, Accepts s.cfg s.ports.pwd → ∃ c : Cascade s.cfg.n,
    exec .rekey s = .next { s with cascade := c, resp := some ⟨0, 0, 0⟩ } ∧ c.keyed = true ∧
    (c.hop.toList.map (·.toNat)).Perm (List.range (4 * s.cfg.n)) ∧
    (c.regs.toList.map (·.upLink)).Perm (List.finRange (4 * s.cfg.n)) ∧
    (c.regs.toList.map (·.downLink)).Perm (List.finRange (4 * s.cfg.n)) ∧
    1 ≤ c.walshIndex.toNat ∧ c.walshIndex.toNat ≤ 127 ∧ (∀ x ∈ c.cross.toList, x.toNat ≤ 3) ∧
    ∀ g : RegIndex s.cfg.n, let r := reg c.regs g
      r.state = r.seed ∧ r.leap.toNat ≤ 14 ∧
      r.posUp.toNat ≤ 31 ∧ r.posDown.toNat ≤ 31 ∧ r.winA.toNat ≤ 31 ∧ r.winB.toNat ≤ 31 ∧
      r.lastInput = (reg s.cascade.regs g).lastInput ∧ r.lastOutput = (reg s.cascade.regs g).lastOutput

/-- R136 (the order inside a step is the spec's decision D14, the pool of the permutations D15), for a password whose
answers are known: where a known answer is in the range of its request, each field of the new key is the known answer
to its own request of the sequence (a) to (k), and the three permutations are those of their own runs of draws. That
known answers stand in two lists consumed front to back, also past an answer out of range, to which R132 gives no
meaning, is the model's choice (log 3). -/
def Obligations.RekeyConsumesTheDrawsInOrder : Prop :=
  ∀ (s : State) (script : KsScript), s.cfg.ks.lookup s.ports.pwd = some (.accept script) →
    let n := s.cfg.n
    let K := 4 * n
    let permutation : Nat → List Nat → Prop := fun offset result =>
      ∀ draws : List Nat, draws = (script.bounded.drop offset).take (K - 2) → draws.length = K - 2 →
        (∀ t r : Nat, draws[t]? = some r → r ≤ K - 1 - t) → result = permutationOf draws (List.range K)
    let b := script.bounded
    let f := (n - 1) + 3 * (K - 2)
    ∃ c : Cascade s.cfg.n, exec .rekey s = .next { s with cascade := c, resp := some ⟨0, 0, 0⟩ } ∧
    (∀ i : Fin (n - 1), ∀ v, b[i.val]? = some v → v ≤ 3 → c.cross[i] = BitVec.ofNat 2 v) ∧
    permutation (n - 1) (c.hop.toList.map (·.toNat)) ∧
    permutation (n - 1 + (K - 2)) (c.regs.toList.map (·.upLink.val)) ∧
    permutation (n - 1 + 2 * (K - 2)) (c.regs.toList.map (·.downLink.val)) ∧
    (∀ v, b[f + 5 * K]? = some v → v ≤ 127 → c.walshIndex = if v = 0 then 1 else BitVec.ofNat 7 v) ∧
    ∀ g : RegIndex n, let r := reg c.regs g
      (∀ v, script.u64s[g.val]? = some v → r.seed = v ∧ r.state = v) ∧
      (∀ v, b[f + g]? = some v → v ≤ 31 → r.posUp = BitVec.ofNat 5 v) ∧
      (∀ v, b[f + K + g]? = some v → v ≤ 31 → r.posDown = BitVec.ofNat 5 v) ∧
      (∀ v, b[f + 2 * K + g]? = some v → v ≤ 31 → r.winA = BitVec.ofNat 5 v) ∧
      (∀ v, b[f + 3 * K + g]? = some v → v ≤ 31 → r.winB = BitVec.ofNat 5 v) ∧
      (∀ v, b[f + 4 * K + g]? = some v → v ≤ 14 → r.leap = BitVec.ofNat 4 v)

/-- R136 with R134 (the spec's decisions D14 and D15), for every accepted password: each field of the new key is the
answer to its own request of the sequence (a) to (k), and the three permutations are those of their own runs of draws.
An answer is the known one where there is one in range, and otherwise the free value of the password and of the
requests before it; that form of an answer is the model's choice (log 3). -/
def Obligations.RekeyStoresTheAnswerToEachRequest : Prop :=
  ∀ (s : State) (script : KsScript), OpensWith s.cfg s.ports.pwd script →
    let n := s.cfg.n
    let K := 4 * n
    let answer : Nat → Nat → Nat := boundedAnswer s.ports.pwd script n
    let permutation : Nat → List Nat := fun k =>
      permutationOf ((List.range (K - 2)).map fun t => answer (k + t) (K - 1 - t)) (List.range K)
    let f := (n - 1) + 3 * (K - 2)
    ∃ c : Cascade s.cfg.n, exec .rekey s = .next { s with cascade := c, resp := some ⟨0, 0, 0⟩ } ∧
    (∀ i : Fin (n - 1), c.cross[i] = BitVec.ofNat 2 (answer i 3)) ∧
    c.hop.toList.map (·.toNat) = permutation (n - 1) ∧
    c.regs.toList.map (·.upLink.val) = permutation (n - 1 + (K - 2)) ∧
    c.regs.toList.map (·.downLink.val) = permutation (n - 1 + 2 * (K - 2)) ∧
    (c.walshIndex = if answer (f + 5 * K) 127 = 0 then 1 else BitVec.ofNat 7 (answer (f + 5 * K) 127)) ∧
    ∀ g : RegIndex n, let r := reg c.regs g
      r.seed = u64Answer s.ports.pwd script g ∧ r.state = u64Answer s.ports.pwd script g ∧
      r.posUp = BitVec.ofNat 5 (answer (f + g) 31) ∧
      r.posDown = BitVec.ofNat 5 (answer (f + K + g) 31) ∧
      r.winA = BitVec.ofNat 5 (answer (f + 2 * K + g) 31) ∧
      r.winB = BitVec.ofNat 5 (answer (f + 3 * K + g) 31) ∧
      r.leap = BitVec.ofNat 4 (answer (f + 4 * K + g) 14)

/-- R134, R136: the requests of one REKEY are the sequence (a) to (k), whatever the answers: `K` 64-bit draws and then
`8K + N - 6` bounded ones. -/
def Obligations.RekeyIssuesTheSpecifiedRequests : Prop :=
  ∀ (n : Nat) (p : KsPort), 2 ≤ n →
    (drawKey n p).2.earlier.reverse = p.earlier.reverse ++ keyRequests n ∧
    (keyRequests n).length = 4 * n + (8 * (4 * n) + n - 6) ∧
    (keyRequests n).take (4 * n) = List.replicate (4 * n) .u64 ∧ .u64 ∉ (keyRequests n).drop (4 * n)

/-- R134, R135: RandomPermutation always gives a bijection on 0..k-1 whose last two outputs are descending (the order is
the spec's inference from its decision D15). -/
def Obligations.RandomPermutationIsABijectionWithDescendingTail : Prop :=
  ∀ (k : Nat) (p : KsPort) (h : 2 ≤ k),
    (randomPermutation k p).1.toList.Perm (List.finRange k) ∧
    (randomPermutation k p).1[k - 1] < (randomPermutation k p).1[k - 2]

/-- R133, R136: what an accepted REKEY leaves does not depend on the state before it, the dead transients apart. -/
def Obligations.RekeyForgetsTheOldKey : Prop :=
  ∀ (s : State) (old : Cascade s.cfg.n), Accepts s.cfg s.ports.pwd →
    ∃ a b, exec .rekey s = .next a ∧ exec .rekey { s with cascade := old } = .next b ∧
      eraseTransients a = eraseTransients b

/-- R51, R136 (corner cases): a second REKEY with the same password leaves everything as the first left it. -/
def Obligations.RekeyTwiceIsRekeyOnce : Prop :=
  ∀ s : State, ∃ t, exec .rekey s = .next t ∧ exec .rekey t = .next t

/-! ## ENC and DEC -/

/-- R173: ENC and DEC on an unkeyed instance write no state and answer `ERR_UNKEYED` with zero data (the
spec's decision D10). -/
def Obligations.UnkeyedBlockCommandsAreRefused : Prop :=
  ∀ s : State, s.cascade.keyed = false →
    exec .enc s = .next { s with resp := some ⟨2, 0, 0⟩ } ∧ exec .dec s = .next { s with resp := some ⟨2, 0, 0⟩ }

/-- R120 by way of R42, R91, R93, R100 and R107 (the pairing of windows and registers is the spec's decision D16): a
keyed ENC answers OK with the block of the closed form, whose first step is the exclusive OR of the operands with the
Walsh entry that `walshIndex` selects; every register takes the transients of its window and the state the sequential
clock pass and the hop pass give it, and nothing else is written. -/
def Obligations.EncRefinesTheClosedForm : Prop :=
  ∀ s : State, s.cascade.keyed = true →
    let c := s.cascade
    let mask := s.cfg.walsh[c.walshIndex.toNat]'(c.walshIndex.isLt)
    let b := interleave s.cfg ⟨s.ports.din0 ^^^ mask.word0, s.ports.din1 ^^^ mask.word1⟩
    let input : RegIndex s.cfg.n → U32 := fun g => window (encodeInput c b (ringOf g) (ringOf g).isLt) (localOf g)
    let out := blockXor (encodeInput c b (lastRing s.cfg) (lastRing s.cfg).isLt) (keystream c.regs (lastRing s.cfg))
    ∃ (rf : RegFile s.cfg.n) (x : RegIndex s.cfg.n → U64),
      exec .enc s =
        .next { s with cascade := { c with regs := rf }, resp := some ⟨0, out.word0, out.word1⟩ } ∧
      IsClockPass c.regs input x ∧
      ∀ g : RegIndex s.cfg.n, reg rf g =
        { reg c.regs g with
          state := x (hopOrder c.hop g), lastInput := input g, lastOutput := input g ^^^ lo32 (reg c.regs g).state }

/-- R121 by way of R42, R92, R94, R100 and R107 (D16; the ring order of the clock pass is the spec's decision D17): a
keyed DEC answers OK with the block of the closed form, whose last step is the exclusive OR with the Walsh entry that
`walshIndex` selects; every register takes the transients of its window and the state the sequential clock pass, fed
with the recovered windows, and the hop pass give it, and nothing else is written. -/
def Obligations.DecRefinesTheClosedForm : Prop :=
  ∀ s : State, s.cascade.keyed = true →
    let c := s.cascade
    let n := s.cfg.n
    let b : Block := ⟨s.ports.din0, s.ports.din1⟩
    let input : RegIndex n → U32 := fun g =>
      window (decodeInput c b (n - 1 - ringOf g) (by have := s.cfg.two_le_n; omega)) (localOf g)
    let output : RegIndex n → U32 := fun g => input g ^^^ lo32 (reg c.regs g).state
    let last := blockXor (decodeInput c b (n - 1) (by have := s.cfg.two_le_n; omega)) (keystream c.regs (firstRing s.cfg))
    let mask := s.cfg.walsh[c.walshIndex.toNat]'(c.walshIndex.isLt)
    let masked := deInterleave s.cfg last
    ∃ (rf : RegFile n) (x : RegIndex n → U64),
      exec .dec s =
        .next { s with
          cascade := { c with regs := rf }
          resp := some ⟨0, masked.word0 ^^^ mask.word0, masked.word1 ^^^ mask.word1⟩ } ∧
      IsClockPass c.regs output x ∧
      ∀ g : RegIndex n, reg rf g =
        { reg c.regs g with state := x (hopOrder c.hop g), lastInput := input g, lastOutput := output g }

/-- R122: two keyed instances of the same constants with equal Walsh index, CrossPermute codes and register states: what
the first encodes, the second decodes. -/
def Obligations.DecodeUndoesEncode : Prop :=
  ∀ (s : State) (peer : Cascade s.cfg.n) (pwd : Password) (pending : List Command) (resp : Option Response),
    s.cascade.keyed = true → peer.keyed = true → peer.walshIndex = s.cascade.walshIndex →
    peer.cross = s.cascade.cross →
    (∀ g : RegIndex s.cfg.n, (reg peer.regs g).state = (reg s.cascade.regs g).state) →
    ∃ (c d : U64) (a : Cascade s.cfg.n) (b : Cascade s.cfg.n),
      exec .enc s = .next { s with cascade := a, resp := some ⟨0, c, d⟩ } ∧
      exec .dec ⟨s.cfg, peer, ⟨c, d, pwd⟩, pending, resp⟩ =
        .next ⟨s.cfg, b, ⟨c, d, pwd⟩, pending, some ⟨0, s.ports.din0, s.ports.din1⟩⟩

/-- R123: a keyed instance encodes a sequence of blocks, an instance in lockstep with it decodes the outputs in order:
the second gives back the blocks, and at the end the two are in lockstep again. -/
def Obligations.LockstepIsKeptAlongABlockSequence : Prop :=
  ∀ (s : State) (peer : Cascade s.cfg.n) (ports : Ports) (pending : List Command) (resp : Option Response)
    (blocks : List Block), s.cascade.keyed = true → Lockstep s.cascade peer →
    ∃ (outputs : List Block) (a b : Cascade s.cfg.n) (p q : Ports) (u v : Option Response),
      runBlocks .enc s blocks = some (⟨s.cfg, a, p, s.pending, u⟩, outputs) ∧
      runBlocks .dec ⟨s.cfg, peer, ports, pending, resp⟩ outputs = some (⟨s.cfg, b, q, pending, v⟩, blocks) ∧
      Lockstep a b

/-- R124, R125 and spec/95_test_vectors.md section 2.3: from power-on, REKEY with an accepted password and RESET; what
an instance then encodes, an instance started the same way decodes, and the two end equal but for the transients, the
sampled operand ports and the response. -/
def Obligations.FreshlyKeyedInstancesRoundTrip : Prop :=
  ∀ (cfg : Config) (pwd : Password) (blocks : List Block), Accepts cfg pwd →
    ∃ (k r e d : State) (outputs : List Block),
      exec .rekey { State.powerOn cfg with ports := ⟨0, 0, pwd⟩ } = .next k ∧ exec .reset k = .next r ∧
      runBlocks .enc r blocks = some (e, outputs) ∧ runBlocks .dec r outputs = some (d, blocks) ∧
      { eraseTransients d with ports := e.ports, resp := e.resp } = eraseTransients e

/-- R126: flipping one input bit of a block flips exactly one output bit of that block, at a position that does not
depend on the block. -/
def Obligations.OneInputBitFlipsOneOutputBit : Prop :=
  ∀ s : State, s.cascade.keyed = true → ∃ σ : Equiv.Perm (Fin 128), ∀ (b : Block) (j : Fin 128),
    ∃ t u c d, runBlock .enc s b = some (t, c) ∧
      runBlock .enc s (blockOfBits (blockBits b ^^^ BitVec.twoPow 128 j)) = some (u, d) ∧
      blockBits d = blockBits c ^^^ BitVec.twoPow 128 (σ j)

/-- R16 (the spec's inference, with its decision D21): states that differ in transients only answer every command alike
and stay so; after a keyed ENC or DEC they are the same state. So the reset values of log 4 show in no response. -/
def Obligations.TransientsAreUnobservable : Prop :=
  ∀ (s t : State) (i : Instr), eraseTransients s = eraseTransients t →
    ∃ a b, exec i s = .next a ∧ exec i t = .next b ∧ a.resp = b.resp ∧ eraseTransients a = eraseTransients b ∧
      (s.cascade.keyed = true → i = .enc ∨ i = .dec → a = b)

/-- R23, R199: ENC and DEC read no seed and write none: states that differ in seeds only give the same response and the
same state but for the seeds, and every register of each keeps its seed. -/
def Obligations.BlockCommandsIgnoreTheSeeds : Prop :=
  ∀ (s t : State) (i : Instr), eraseSeeds s = eraseSeeds t → i = .enc ∨ i = .dec →
    ∃ a b, exec i s = .next a ∧ exec i t = .next b ∧ a.resp = b.resp ∧ eraseSeeds a = eraseSeeds b ∧
      a.cascade.regs.toList.map (·.seed) = s.cascade.regs.toList.map (·.seed) ∧
      b.cascade.regs.toList.map (·.seed) = t.cascade.regs.toList.map (·.seed)

/-- R138, R197: RESET brings a keyed instance back to the standard point it started from, whatever blocks it encoded and
decoded since; the dead transients, the sampled operands and the response apart. -/
def Obligations.ResetReturnsToTheStandardPoint : Prop :=
  ∀ (s : State) (commands : List (Bool × Block)), s.cascade.keyed = true → AtSeeds s →
    ∃ t u, runMixed s commands = some t ∧ exec .reset t = .next u ∧
      { eraseTransients u with ports := s.ports, resp := s.resp } = eraseTransients s

/-! ## The parts of the block commands -/

/-- R11, R90, R101 (D4, D16): register `l` of ring `i` is number `4 * i + l`, and the window routed through it is bits
`32 * l + 31` down to `32 * l` of the block, whose bit `j` is `word0[j]` below 64 and `word1[j - 64]` from 64 on. -/
def Obligations.WindowsAreTheQuartersOfTheBlock : Prop :=
  (∀ (n : Nat) (i : Fin n) (l : Fin 4), (ringReg i l).val = 4 * i + l) ∧
  (∀ (b : Block) (l : Fin 4), ∀ j < 32, (window b l).getLsbD j = (blockBits b).getLsbD (32 * l + j)) ∧
  ∀ (b : Block), ∀ j < 64, (blockBits b).getLsbD j = b.word0.getLsbD j ∧
    (blockBits b).getLsbD (64 + j) = b.word1.getLsbD j

/-- R105: the CrossPermute table; no op is the identity. -/
def Obligations.CrossPermuteFollowsItsTable : Prop :=
  ∀ H0 L0 H1 L1 : U32, let b : Block := ⟨cat32 H0 L0, cat32 H1 L1⟩
    crossPermute 0 b = ⟨cat32 H0 H1, cat32 L0 L1⟩ ∧ crossPermute 1 b = ⟨cat32 L1 L0, cat32 H1 H0⟩ ∧
    crossPermute 2 b = ⟨cat32 L0 H0, cat32 L1 H1⟩ ∧ crossPermute 3 b = ⟨cat32 L1 H1, cat32 L0 H0⟩ ∧
    ∀ op, ∃ c, crossPermute op c ≠ c

/-- R106: each op is its own inverse; ops with different codes are not each other's inverses and do not in general
commute. -/
def Obligations.CrossPermuteIsItsOwnInverse : Prop :=
  (∀ (op : BitVec 2) (b : Block), crossPermute op (crossPermute op b) = b) ∧
  (∀ op op' : BitVec 2, op ≠ op' → ∃ b, crossPermute op' (crossPermute op b) ≠ b) ∧
  ∃ (op op' : BitVec 2) (b : Block), crossPermute op (crossPermute op' b) ≠ crossPermute op' (crossPermute op b)

/-- R102: Interleave moves input bit `j` to output position `ILV(j)`; it preserves the number of 1 bits, the zero block
and the all-ones block, and distributes over exclusive OR. -/
def Obligations.InterleaveMovesEachBit : Prop :=
  ∀ (cfg : Config) (b c : Block),
    (∀ j : Fin 128, (blockBits (interleave cfg b)).getLsbD cfg.ilv[j] = (blockBits b).getLsbD j) ∧
    (List.finRange 128).countP (fun j : Fin 128 => (blockBits (interleave cfg b)).getLsbD j) =
      (List.finRange 128).countP (fun j : Fin 128 => (blockBits b).getLsbD j) ∧
    interleave cfg ⟨0, 0⟩ = ⟨0, 0⟩ ∧
    interleave cfg ⟨BitVec.allOnes 64, BitVec.allOnes 64⟩ = ⟨BitVec.allOnes 64, BitVec.allOnes 64⟩ ∧
    interleave cfg (blockXor b c) = blockXor (interleave cfg b) (interleave cfg c)

/-- R103: DeInterleave takes output bit `j` from input position `ILV(j)` and is the inverse of Interleave on both
sides. -/
def Obligations.DeInterleaveInvertsInterleave : Prop :=
  ∀ (cfg : Config) (b : Block),
    (∀ j : Fin 128, (blockBits (deInterleave cfg b)).getLsbD j = (blockBits b).getLsbD cfg.ilv[j]) ∧
    deInterleave cfg (interleave cfg b) = b ∧ interleave cfg (deInterleave cfg b) = b

/-- R83, R84 (and R80, R85, R86): one clock, bit by bit. Bits 30..0 come from the old state shifted right by `leap`
alone; bits 62..31 are that exclusive-or the four window bits and the folded word; bit 63 is the shifted state's. No
other field and no other register changes. -/
def Obligations.ClockShiftsAndFoldsBitByBit : Prop :=
  ∀ (n : Nat) (rf : RegFile n) (g : RegIndex n),
    let r := reg rf g
    let old := r.state
    let up := (reg rf r.upLink).state
    let down := (reg rf r.downLink).state
    ∀ (clock : RegFile n → RegIndex n → RegFile n) (folded : U32),
      (clock, folded) ∈ [(clockForward, r.lastInput), (clockBackward, r.lastOutput)] →
      (∀ i < 31, (reg (clock rf g) g).state.getLsbD i = old.getLsbD (i + r.leap.toNat)) ∧
      (∀ k < 32, (reg (clock rf g) g).state.getLsbD (31 + k) =
        (old.getLsbD (31 + k + r.leap.toNat) ^^ old.getLsbD (k + r.winA.toNat) ^^ up.getLsbD (k + r.posUp.toNat) ^^
          old.getLsbD (k + r.winB.toNat) ^^ down.getLsbD (k + r.posDown.toNat) ^^ folded.getLsbD k)) ∧
      (reg (clock rf g) g).state.getLsbD 63 = (decide (r.leap = 0) && old.getLsbD 63) ∧
      reg (clock rf g) g = { r with state := (reg (clock rf g) g).state } ∧
      ∀ j, j ≠ g → (reg (clock rf g) j) = reg rf j

/-- R107, R108: the hop pass moves the states by a permutation that `hop` alone fixes, whatever the states, and moves
nothing else; it is the product of the swaps of the valid entries (D29: below `K`) in index order. -/
def Obligations.HopSeedsPermutesTheStates : Prop :=
  ∀ (n : Nat) (hop : Vector (BitVec 16) (4 * n)) (rf : RegFile n) (g : RegIndex n),
    reg (hopSeeds hop rf) g = { reg rf g with state := (reg rf (hopOrder hop g)).state }

/-! ## The whole machine -/

/-- R15, R19, R21, R24, R64, R137: every step keeps the invariant. -/
def Obligations.EveryStepKeepsTheInvariant : Prop :=
  ∀ s t : State, Inv s → step s = .next t → Inv t

/-- R15, R19, R21, R24: the invariant holds after power-on, so at reset too. -/
def Obligations.PowerOnMeetsTheInvariant : Prop :=
  (∀ cfg : Config, Inv (State.powerOn cfg)) ∧ Inv State.reset

/-- R24: the value of every piece of state after power-on reset (the transients, which the rule leaves unspecified,
apart; the values are the spec's decisions D6 and D7), and the default instance of R5. No command presented and no
response given are the model's own fields (logs 6 and 7). -/
def Obligations.PowerOnGivesTheListedValues : Prop :=
  State.reset = State.powerOn State.reset.cfg ∧ State.reset.cfg.n = 9 ∧
  ∀ cfg : Config, let s := State.powerOn cfg
    s.cfg = cfg ∧ s.cascade.walshIndex = 1 ∧ s.cascade.keyed = false ∧ s.pending = [] ∧ s.resp = none ∧
    (∀ x ∈ s.cascade.cross.toList, x = 0) ∧ (∀ h ∈ s.cascade.hop.toList, h = 0xFFFF) ∧
    ∀ g : RegIndex s.cfg.n, let r := reg s.cascade.regs g
      r.seed = 0 ∧ r.state = 0 ∧
      r.posUp = 0 ∧ r.posDown = 0 ∧ r.winA = 0 ∧ r.winB = 0 ∧ r.leap = 1 ∧
      r.upLink.val = 4 * (g / 4) + (g % 4 + 1) % 4 ∧ r.downLink.val = 4 * (g / 4) + (g % 4 + 3) % 4

/-- R26: no step writes the constants of the instance. -/
def Obligations.ConfigurationIsNeverWritten : Prop :=
  ∀ s t : State, step s = .next t → t.cfg = s.cfg

/-- R23 (the access matrix): only REKEY writes links, `cross`, `hop`, the Walsh index and `keyed`; of the others, only
SETSEED writes seeds, only RESET, SETSTATE, ENC and DEC write states, only ENC and DEC write transients, and only its
own SET writes a parameter. -/
def Obligations.OnlyTheNamedCommandsWriteEachField : Prop :=
  ∀ (i : Instr) (s : State), i ≠ .rekey →
    ∃ (rf : RegFile s.cfg.n) (r : Response),
      exec i s = .next { s with cascade := { s.cascade with regs := rf }, resp := some r } ∧
      ∀ g : RegIndex s.cfg.n, let old := reg s.cascade.regs g
        (reg rf g).upLink = old.upLink ∧ (reg rf g).downLink = old.downLink ∧
        ((∀ j, i ≠ .setSeed j) → (reg rf g).seed = old.seed) ∧
        ((∀ j, i ≠ .setState j) → i ∉ [.reset, .enc, .dec] → (reg rf g).state = old.state) ∧
        (i ∉ [.enc, .dec] → (reg rf g).lastInput = old.lastInput ∧ (reg rf g).lastOutput = old.lastOutput) ∧
        ((∀ j, i ≠ .setPosUp j) → (reg rf g).posUp = old.posUp) ∧
        ((∀ j, i ≠ .setPosDown j) → (reg rf g).posDown = old.posDown) ∧
        ((∀ j, i ≠ .setWinA j) → (reg rf g).winA = old.winA) ∧
        ((∀ j, i ≠ .setWinB j) → (reg rf g).winB = old.winB) ∧
        ((∀ j, i ≠ .setLeap j) → (reg rf g).leap = old.leap)

/-- R17 (the spec's decision D22): `keyed` is 1 after a step exactly when it was before or the step accepted a REKEY;
so once 1 it stays 1. -/
def Obligations.KeyedIsSetOnlyByAnAcceptedRekey : Prop :=
  ∀ s t : State, step s = .next t →
    (t.cascade.keyed = true ↔ s.cascade.keyed = true ∨
      ∃ c rest, s.pending = c :: rest ∧ decode c.cmd = .ok .rekey ∧ Accepts s.cfg c.pwd)

/-- R64, R178: a command answered with an error has written no state, its data words are 0, and its status is one of the
three error codes. -/
def Obligations.ErrorsWriteNothing : Prop :=
  ∀ (s t : State) (c : Command) (rest : List Command) (r : Response),
    s.pending = c :: rest → step s = .next t → t.resp = some r → r.status ≠ 0 →
    t = { s with pending := rest, ports := ⟨c.din0, c.din1, c.pwd⟩, resp := some ⟨r.status, 0, 0⟩ } ∧
      r.status.toNat ≤ 3
end

