-- ==== Sys2Proof/Laws/State.lean ====
section
/-! SUPPORT. The fields of a state after each of the shared updates, one lemma per field and update. -/

namespace Sys2Proof.Machine

variable (s : State)

@[simp] theorem State.withRegs_cfg (rf) : (s.withRegs rf).cfg = s.cfg := rfl
@[simp] theorem State.withRegs_regs (rf) : (s.withRegs rf).cascade.regs = rf := rfl
@[simp] theorem State.withRegs_cross (rf) : (s.withRegs rf).cascade.cross = s.cascade.cross := rfl
@[simp] theorem State.withRegs_hop (rf) : (s.withRegs rf).cascade.hop = s.cascade.hop := rfl
@[simp] theorem State.withRegs_walshIndex (rf) : (s.withRegs rf).cascade.walshIndex = s.cascade.walshIndex := rfl
@[simp] theorem State.withRegs_keyed (rf) : (s.withRegs rf).cascade.keyed = s.cascade.keyed := rfl
@[simp] theorem State.withRegs_ports (rf) : (s.withRegs rf).ports = s.ports := rfl
@[simp] theorem State.withRegs_pending (rf) : (s.withRegs rf).pending = s.pending := rfl
@[simp] theorem State.withRegs_resp (rf) : (s.withRegs rf).resp = s.resp := rfl

@[simp] theorem State.accept_cfg (c rest) : (s.accept c rest).cfg = s.cfg := rfl
@[simp] theorem State.accept_cascade (c rest) : (s.accept c rest).cascade = s.cascade := rfl
@[simp] theorem State.accept_ports (c : Command) (rest) :
    (s.accept c rest).ports = ⟨c.din0, c.din1, c.pwd⟩ := rfl
@[simp] theorem State.accept_pending (c rest) : (s.accept c rest).pending = rest := rfl
@[simp] theorem State.accept_resp (c rest) : (s.accept c rest).resp = s.resp := rfl

@[simp] theorem State.respond_cfg (st d e) : (s.respond st d e).cfg = s.cfg := rfl
@[simp] theorem State.respond_cascade (st d e) : (s.respond st d e).cascade = s.cascade := rfl
@[simp] theorem State.respond_ports (st d e) : (s.respond st d e).ports = s.ports := rfl
@[simp] theorem State.respond_pending (st d e) : (s.respond st d e).pending = s.pending := rfl
@[simp] theorem State.respond_resp (st d e) : (s.respond st d e).resp = some ⟨st, d, e⟩ := rfl

@[simp] theorem State.answer_cfg (d) : (s.answer d).cfg = s.cfg := rfl
@[simp] theorem State.answer_cascade (d) : (s.answer d).cascade = s.cascade := rfl
@[simp] theorem State.answer_ports (d) : (s.answer d).ports = s.ports := rfl
@[simp] theorem State.answer_pending (d) : (s.answer d).pending = s.pending := rfl
@[simp] theorem State.answer_resp (d) : (s.answer d).resp = some ⟨0, d, 0⟩ := rfl

@[simp] theorem State.answerBlock_cfg (b) : (s.answerBlock b).cfg = s.cfg := rfl
@[simp] theorem State.answerBlock_cascade (b) : (s.answerBlock b).cascade = s.cascade := rfl
@[simp] theorem State.answerBlock_ports (b) : (s.answerBlock b).ports = s.ports := rfl
@[simp] theorem State.answerBlock_pending (b) : (s.answerBlock b).pending = s.pending := rfl
@[simp] theorem State.answerBlock_resp (b : Block) :
    (s.answerBlock b).resp = some ⟨0, b.word0, b.word1⟩ := rfl

@[simp] theorem State.raise_cfg (c) : (s.raise c).cfg = s.cfg := rfl
@[simp] theorem State.raise_cascade (c) : (s.raise c).cascade = s.cascade := rfl
@[simp] theorem State.raise_ports (c) : (s.raise c).ports = s.ports := rfl
@[simp] theorem State.raise_pending (c) : (s.raise c).pending = s.pending := rfl
@[simp] theorem State.raise_resp (c : Condition) : (s.raise c).resp = some ⟨c.code, 0, 0⟩ := rfl

@[simp] theorem Condition.code_keyRejected : Condition.keyRejected.code = 1 := rfl
@[simp] theorem Condition.code_unkeyedUse : Condition.unkeyedUse.code = 2 := rfl
@[simp] theorem Condition.code_illegalCommand : Condition.illegalCommand.code = 3 := rfl
@[simp] theorem Condition.code_invalidIndex : Condition.invalidIndex.code = 0 := rfl

end Sys2Proof.Machine
end

