-- ==== Sys2Proof/Laws/Ops.lean ====
section
/-! SUPPORT. What the shared register operations do, once each. -/

namespace Sys2Proof.Machine

variable {n : Nat}

/-- `updateReg` rewrites the one register and leaves every other. -/
theorem updateReg_get (rf : RegFile n) (g j : RegIndex n) (f : Reg n → Reg n) :
    reg (updateReg rf g f) j = if g = j then f (reg rf j) else reg rf j := by
  unfold updateReg
  by_cases h : g = j
  · subst h; simp [reg]
  · simp [reg, h, Fin.val_ne_of_ne h]

/-- `setRegState` rewrites the one state field and leaves every other register. -/
theorem setRegState_get (rf : RegFile n) (g j : RegIndex n) (v : U64) :
    reg (setRegState rf g v) j = if g = j then { reg rf j with state := v } else reg rf j := by
  simp only [setRegState, updateReg_get]

/-- A GET with an index in range answers the field and changes nothing else. -/
theorem readField_inRange (s : State) (idx : Nat) (f : Reg s.cfg.n → U64) (h : idx < 4 * s.cfg.n) :
    readField s idx f = s.answer (f (reg s.cascade.regs ⟨idx, h⟩)) := by simp [readField, h]

/-- A GET with an index out of range answers 0 and changes nothing else. -/
theorem readField_outOfRange (s : State) (idx : Nat) (f : Reg s.cfg.n → U64) (h : ¬ idx < 4 * s.cfg.n) :
    readField s idx f = s.answer 0 := by simp [readField, h, State.raise, State.answer, Condition.code]

/-- A GET changes nothing but the response. -/
theorem readField_answers (s : State) (idx : Nat) (f : Reg s.cfg.n → U64) :
    ∃ d, readField s idx f = s.answer d := by
  by_cases h : idx < 4 * s.cfg.n
  · exact ⟨_, readField_inRange s idx f h⟩
  · exact ⟨_, readField_outOfRange s idx f h⟩

/-- A SET writes the one register its index names, if it names one, and answers OK. -/
theorem writeField_spec (s : State) (idx : Nat) (f : Reg s.cfg.n → Reg s.cfg.n) :
    ∃ rf : RegFile s.cfg.n, writeField s idx f = (s.withRegs rf).answer 0 ∧
      ∀ g : RegIndex s.cfg.n, reg rf g = if g.val = idx then f (reg s.cascade.regs g) else reg s.cascade.regs g := by
  by_cases h : idx < 4 * s.cfg.n
  · refine ⟨updateReg s.cascade.regs ⟨idx, h⟩ f, by simp [writeField, h], fun g => ?_⟩
    rw [updateReg_get]
    simp only [Fin.ext_iff, eq_comm]
  · refine ⟨s.cascade.regs, ?_, fun g => ?_⟩
    · simp only [writeField, h, dite_false]; rfl
    · rw [if_neg]; omega

/-- Two register files with the same registers are the same. -/
theorem regFile_ext {a b : RegFile n} (h : ∀ g : RegIndex n, reg a g = reg b g) : a = b :=
  Vector.ext fun i hi => h ⟨i, hi⟩

/-- Register numbers of two rings' locals agree only when ring and local do. -/
theorem ringReg_inj {i j : Fin n} {k l : Fin 4} : ringReg i k = ringReg j l ↔ i = j ∧ k = l := by
  simp only [ringReg, Fin.ext_iff]; omega

end Sys2Proof.Machine
end

