-- ==== Sys2Proof/Laws/Words.lean ====
section
/-! SUPPORT. The halves of a word and the two views of a block are inverse to each other. -/

namespace Sys2Proof.Machine

@[simp] theorem lo32_cat32 (a b : U32) : lo32 (cat32 a b) = b := by
  apply BitVec.eq_of_getLsbD_eq; intro i h
  simp only [lo32, cat32, BitVec.getLsbD_extractLsb', BitVec.getLsbD_append]
  simp [h]

@[simp] theorem hi32_cat32 (a b : U32) : hi32 (cat32 a b) = a := by
  apply BitVec.eq_of_getLsbD_eq; intro i h
  simp only [hi32, cat32, BitVec.getLsbD_extractLsb', BitVec.getLsbD_append]
  simp [h]

@[simp] theorem cat32_halves (w : U64) : cat32 (hi32 w) (lo32 w) = w := by
  apply BitVec.eq_of_getLsbD_eq; intro i h
  simp only [lo32, hi32, cat32, BitVec.getLsbD_append, BitVec.getLsbD_extractLsb']
  by_cases hi : i < 32
  · simp [hi]
  · have : i - 32 < 32 := by omega
    simp [hi, this, show 32 + (i - 32) = i by omega]

@[simp] theorem lo32_xor (a b : U64) : lo32 (a ^^^ b) = lo32 a ^^^ lo32 b := by
  apply BitVec.eq_of_getLsbD_eq; intro i h; simp [lo32, h]

@[simp] theorem hi32_xor (a b : U64) : hi32 (a ^^^ b) = hi32 a ^^^ hi32 b := by
  apply BitVec.eq_of_getLsbD_eq; intro i h; simp [hi32, h]

theorem cat32_xor (a b c d : U32) : cat32 a b ^^^ cat32 c d = cat32 (a ^^^ c) (b ^^^ d) := by
  apply BitVec.eq_of_getLsbD_eq; intro i _
  simp only [cat32, BitVec.getLsbD_append, BitVec.getLsbD_xor]
  split <;> rfl

/-- Block bit `j` is `word0[j]` below 64 and `word1[j - 64]` from 64 on (R101). -/
theorem blockBits_getLsbD (b : Block) (j : Nat) :
    (blockBits b).getLsbD j = if j < 64 then b.word0.getLsbD j else b.word1.getLsbD (j - 64) := by
  simp only [blockBits, BitVec.getLsbD_append]

@[simp] theorem blockBits_blockOfBits (v : BitVec 128) : blockBits (blockOfBits v) = v := by
  apply BitVec.eq_of_getLsbD_eq; intro i h
  rw [blockBits_getLsbD]
  split
  · rename_i h1; simp [blockOfBits, h1]
  · rename_i h1
    have : i - 64 < 64 := by omega
    simp [blockOfBits, this, show 64 + (i - 64) = i by omega]

@[simp] theorem blockOfBits_blockBits (b : Block) : blockOfBits (blockBits b) = b := by
  obtain ⟨w0, w1⟩ := b
  simp only [blockOfBits, Block.mk.injEq]
  constructor
  · apply BitVec.eq_of_getLsbD_eq; intro i h
    simp [blockBits_getLsbD, h]
  · apply BitVec.eq_of_getLsbD_eq; intro i h
    simp [blockBits_getLsbD, h]

theorem blockBits_xor (a b : Block) : blockBits (blockXor a b) = blockBits a ^^^ blockBits b := by
  apply BitVec.eq_of_getLsbD_eq; intro i _
  simp only [BitVec.getLsbD_xor, blockBits_getLsbD, blockXor]
  split <;> rfl

/-- The exclusive OR with one mask is its own inverse. -/
@[simp] theorem blockXor_cancel (a b : Block) : blockXor (blockXor a b) b = a := by
  simp [blockXor]

end Sys2Proof.Machine
end

