-- ==== Sys2Proof/Laws/Cell.lean ====
section
/-! SUPPORT. What the cell's functions do: the codec writes the transients of one register, the clock its state. -/

namespace Sys2Proof.Machine

open Sys2Proof.Safety

variable {n : Nat}

/-- The codec's result is the input under the register's keystream word. -/
@[simp] theorem bitsEncode_fst (rf : RegFile n) (g : RegIndex n) (v : U32) :
    (bitsEncode rf g v).1 = v ^^^ lo32 (reg rf g).state := rfl

/-- The codec writes the two transients of its register and nothing else. -/
theorem bitsEncode_get (rf : RegFile n) (g j : RegIndex n) (v : U32) :
    reg (bitsEncode rf g v).2 j =
      if g = j then { reg rf j with lastInput := v, lastOutput := v ^^^ lo32 (reg rf j).state } else reg rf j := by
  simp only [bitsEncode, updateReg_get]
  split
  · rename_i h; subst h; rfl
  · rfl

/-- Decode is the same formula (R82). -/
theorem bitsDecode_eq_bitsEncode (rf : RegFile n) (g : RegIndex n) (v : U32) :
    bitsDecode rf g v = bitsEncode rf g v := rfl

/-- A clock gives the register its new state, from the states as they are at this moment, and changes no other
register and no other field. -/
theorem clockWith_get (rf : RegFile n) (g j : RegIndex n) (v : U32) :
    reg (clockWith rf g v) j =
      if g = j then
        { reg rf j with state := clockValue (reg rf j) (reg rf (reg rf j).upLink).state (reg rf (reg rf j).downLink).state v }
      else reg rf j := by
  simp only [clockWith, setRegState_get]
  split
  · rename_i h; subst h; rfl
  · rfl

/-- Exchanging two states. -/
theorem swapped_states_get (rf : RegFile n) (i j g : RegIndex n) :
    reg (setRegState (setRegState rf i (reg rf j).state) j (reg rf i).state) g =
      { reg rf g with state := (reg rf (Equiv.swap i j g)).state } := by
  simp only [setRegState_get]
  by_cases hj : j = g
  · subst hj; by_cases hi : i = j <;> simp [hi]
  · by_cases hi : i = g
    · subst hi; simp [hj]
    · simp [hi, hj, Equiv.swap_apply_of_ne_of_ne (Ne.symm hi) (Ne.symm hj)]

end Sys2Proof.Machine
end

