-- ==== Sys2Proof/Laws/Decode.lean ====
section
/-! SUPPORT. The fields of a command word as quotients and remainders, and a word put together from its fields. -/

namespace Sys2Proof

theorem opcField_eq (w : BitVec 32) : opcField w = w.toNat / 2 ^ 24 := by
  have := w.isLt
  simp only [opcField, BitVec.extractLsb'_toNat, Nat.shiftRight_eq_div_pow]; omega

theorem rsvField_eq (w : BitVec 32) : rsvField w = w.toNat / 2 ^ 16 % 2 ^ 8 := by
  simp only [rsvField, BitVec.extractLsb'_toNat, Nat.shiftRight_eq_div_pow]

theorem idxField_eq (w : BitVec 32) : idxField w = w.toNat % 2 ^ 16 := by
  simp only [idxField, BitVec.extractLsb'_toNat, Nat.shiftRight_eq_div_pow]; omega

theorem idxField_lt (w : BitVec 32) : idxField w < 2 ^ 16 := by
  rw [idxField_eq]; omega

/-- The number of a word put together from an operation code and an index that fit. -/
theorem toNat_opc_idx {opc idx : Nat} (ho : opc < 2 ^ 8) (hi : idx < 2 ^ 16) :
    ((BitVec.ofNat 32 opc <<< 24) ||| BitVec.ofNat 32 idx).toNat = opc * 2 ^ 24 + idx := by
  have h1 : (BitVec.ofNat 32 opc <<< 24).toNat = opc <<< 24 := by
    simp [Nat.shiftLeft_eq]; omega
  have h2 : (BitVec.ofNat 32 idx).toNat = idx := by simp; omega
  rw [BitVec.toNat_or, h1, h2, ← Nat.shiftLeft_add_eq_or_of_lt (show idx < 2 ^ 24 by omega), Nat.shiftLeft_eq]

theorem opcOf_lt (i : Instr) : opcOf i < 2 ^ 8 := by cases i <;> simp [opcOf]

/-- The number of a well-formed command's word. -/
theorem encode_toNat {i : Instr} (h : i.WellFormed) : (encode i).toNat = opcOf i * 2 ^ 24 + i.idx :=
  toNat_opc_idx (opcOf_lt i) h

end Sys2Proof
end

