-- ==== Sys2Proof/Laws/KeySchedule.lean ====
section
/-! SUPPORT. What the draws of the key schedule do: each makes one request and consumes one known answer. -/

namespace Sys2Proof.Machine

open Sys2Proof.Safety

/-- The port is open exactly when the key schedule accepts the password. -/
theorem openKeySchedule_isSome (cfg : Config) (pwd : Password) :
    (openKeySchedule cfg pwd).isSome = true ↔ Accepts cfg pwd := by
  unfold openKeySchedule Accepts
  cases h : cfg.ks.lookup pwd with
  | none => simp
  | some e => cases e <;> simp

/-- A rejected password opens no port. -/
theorem openKeySchedule_eq_none (cfg : Config) (pwd : Password) :
    openKeySchedule cfg pwd = none ↔ Rejects cfg pwd := by
  unfold openKeySchedule Rejects
  cases h : cfg.ks.lookup pwd with
  | none => simp
  | some e => cases e <;> simp

@[simp] theorem drawU64_earlier (p : KsPort) : (drawU64 p).2.earlier = .u64 :: p.earlier := rfl
@[simp] theorem drawU64_u64s (p : KsPort) : (drawU64 p).2.u64s = p.u64s.tail := rfl
@[simp] theorem drawU64_bounded (p : KsPort) : (drawU64 p).2.bounded = p.bounded := rfl
@[simp] theorem drawBounded_earlier (hi : Nat) (p : KsPort) :
    (drawBounded hi p).2.earlier = .bounded hi :: p.earlier := rfl
@[simp] theorem drawBounded_u64s (hi : Nat) (p : KsPort) : (drawBounded hi p).2.u64s = p.u64s := rfl
@[simp] theorem drawBounded_bounded (hi : Nat) (p : KsPort) :
    (drawBounded hi p).2.bounded = p.bounded.tail := rfl
@[simp] theorem drawField_earlier (w hi : Nat) (p : KsPort) :
    (drawField w hi p).2.earlier = .bounded hi :: p.earlier := rfl
@[simp] theorem drawField_u64s (w hi : Nat) (p : KsPort) : (drawField w hi p).2.u64s = p.u64s := rfl
@[simp] theorem drawField_bounded (w hi : Nat) (p : KsPort) :
    (drawField w hi p).2.bounded = p.bounded.tail := rfl

/-- A known 64-bit answer is what the draw gives. -/
theorem drawU64_known {p : KsPort} {v : U64} (h : p.u64s[0]? = some v) : (drawU64 p).1 = v := by
  simp_all [drawU64, List.head?_eq_getElem?]

/-- A known answer in range is what the draw gives. -/
theorem drawBounded_known {p : KsPort} {v hi : Nat} (h : p.bounded[0]? = some v) (hv : v ≤ hi) :
    (drawBounded hi p).1.val = v := by
  unfold drawBounded
  cases hb : p.bounded with
  | nil => simp [hb] at h
  | cons a as =>
    simp only [hb, List.getElem?_cons_zero, Option.some.injEq] at h
    subst h
    simp [show a < hi + 1 by omega]

/-- A field drawn from a known answer in range holds that answer. -/
theorem drawField_known {p : KsPort} {v w hi : Nat} (h : p.bounded[0]? = some v) (hv : v ≤ hi) :
    (drawField w hi p).1 = BitVec.ofNat w v := by
  simp only [drawField, drawBounded_known h hv]

/-- A field never exceeds its draw's bound. -/
theorem drawField_le (w hi : Nat) (p : KsPort) : (drawField w hi p).1.toNat ≤ hi := by
  have h := (drawBounded hi p).1.isLt
  have := Nat.mod_le (drawBounded hi p).1.val (2 ^ w)
  simp only [drawField, BitVec.toNat_ofNat]; omega

/-- Entry `i` of `drawMany` is draw `i`, made after the `i` draws before it. -/
theorem drawMany_get {α : Type} (draw : KsPort → α × KsPort) (k : Nat) (p : KsPort) (i : Nat) (h : i < k) :
    (drawMany draw k p).1[i] = (draw (drawMany draw i p).2).1 := by
  induction k with
  | zero => omega
  | succ k ih =>
    simp only [drawMany, Vector.getElem_push]
    split
    · exact ih _
    · have : i = k := by omega
      subst this; rfl

/-- `k` draws make `k` times the request of one. -/
theorem drawMany_earlier {α : Type} {draw : KsPort → α × KsPort} {q : KsRequest}
    (hd : ∀ p, (draw p).2.earlier = q :: p.earlier) (k : Nat) (p : KsPort) :
    (drawMany draw k p).2.earlier = List.replicate k q ++ p.earlier := by
  induction k with
  | zero => rfl
  | succ k ih => simp [drawMany, hd, ih, List.replicate_succ]

/-- `k` bounded draws consume `k` known bounded answers. -/
theorem drawMany_bounded {α : Type} {draw : KsPort → α × KsPort}
    (hd : ∀ p, (draw p).2.bounded = p.bounded.tail) (k : Nat) (p : KsPort) :
    (drawMany draw k p).2.bounded = p.bounded.drop k := by
  induction k with
  | zero => rfl
  | succ k ih => simp [drawMany, hd, ih, List.tail_drop]

/-- 64-bit draws consume no bounded answer. -/
theorem drawMany_u64_bounded (k : Nat) (p : KsPort) : (drawMany drawU64 k p).2.bounded = p.bounded := by
  induction k with
  | zero => rfl
  | succ k ih => simp [drawMany, ih]

/-- `k` 64-bit draws consume `k` known 64-bit answers. -/
theorem drawMany_u64s (k : Nat) (p : KsPort) : (drawMany drawU64 k p).2.u64s = p.u64s.drop k := by
  induction k with
  | zero => rfl
  | succ k ih => simp [drawMany, ih, List.tail_drop]

/-- Every entry of the pool comes out of the permutation loop exactly once. -/
theorem permuteLoop_perm {α : Type} (m : Nat) (pool : List α) (p : KsPort) :
    (permuteLoop m pool p).1.Perm pool := by
  induction m generalizing pool p with
  | zero => exact List.reverse_perm pool
  | succ m ih =>
    cases pool with
    | nil => exact List.Perm.refl _
    | cons x xs =>
      simp only [permuteLoop]
      exact ((ih _ _).cons _).trans (List.getElem_cons_eraseIdx_perm (drawBounded xs.length p).1.isLt)

end Sys2Proof.Machine
end

