-- ==== Sys2Proof/Laws/Loops.lean ====
section
/-! SUPPORT. The induction over a counted loop, packaged once: `for i in 0..k-1` is a fold over `List.finRange k`. -/

namespace Sys2Proof

/-- What holds before the first iteration and is carried by each iteration holds after the last. -/
theorem finRange_foldl_induction {σ : Type} {k : Nat} (P : Nat → σ → Prop) (f : σ → Fin k → σ) (s : σ)
    (h0 : P 0 s) (hs : ∀ (i : Fin k) (t : σ), P i t → P (i + 1) (f t i)) :
    P k ((List.finRange k).foldl f s) := by
  have h : ∀ m, m ≤ k → P m (((List.finRange k).take m).foldl f s) := by
    intro m
    induction m with
    | zero => intro _; simpa using h0
    | succ m ih =>
      intro hm
      rw [List.take_add_one, List.foldl_append]
      have : (List.finRange k)[m]? = some ⟨m, hm⟩ := by
        rw [List.getElem?_eq_getElem (by simpa using hm)]; simp
      simpa [this] using hs ⟨m, hm⟩ _ (ih (by omega))
  have := h k (le_refl k)
  rwa [List.take_of_length_le (by simp)] at this

end Sys2Proof
end

