-- ==== Sys2Proof/Laws/PerInstr.lean ====
section
/-! SUPPORT. A family of statements about every instruction as syntax: the word of a well-formed command carries its
row's fixed bits (spec/30_encoding.md R61, R63). -/

namespace Sys2Proof.Laws.RowBits

/-- The word of a well-formed command holds its operation code in bits 31:24, zeros in the reserved bits 23:16 and
its index in bits 15:0. -/
def Statement (i : Instr) : Prop :=
  i.WellFormed → opcField (encode i) = opcOf i ∧ rsvField (encode i) = 0 ∧ idxField (encode i) = i.idx

/-- The fields of a word put together from an operation code and an index that fit. -/
theorem fields_of_parts {opc idx : Nat} (ho : opc < 2 ^ 8) (hi : idx < 2 ^ 16) :
    opcField ((BitVec.ofNat 32 opc <<< 24) ||| BitVec.ofNat 32 idx) = opc ∧
    rsvField ((BitVec.ofNat 32 opc <<< 24) ||| BitVec.ofNat 32 idx) = 0 ∧
    idxField ((BitVec.ofNat 32 opc <<< 24) ||| BitVec.ofNat 32 idx) = idx := by
  have hw := toNat_opc_idx ho hi
  simp only [opcField_eq, rsvField_eq, idxField_eq, hw]
  omega

theorem rekey : Statement .rekey := fields_of_parts (opc := 0x01) (by decide)
theorem reset : Statement .reset := fields_of_parts (opc := 0x02) (by decide)
theorem enc : Statement .enc := fields_of_parts (opc := 0x03) (by decide)
theorem dec : Statement .dec := fields_of_parts (opc := 0x04) (by decide)
theorem numSeeds : Statement .numSeeds := fields_of_parts (opc := 0x05) (by decide)
theorem getSeed (idx : Nat) : Statement (.getSeed idx) := fields_of_parts (opc := 0x10) (by decide)
theorem setSeed (idx : Nat) : Statement (.setSeed idx) := fields_of_parts (opc := 0x11) (by decide)
theorem getState (idx : Nat) : Statement (.getState idx) := fields_of_parts (opc := 0x12) (by decide)
theorem setState (idx : Nat) : Statement (.setState idx) := fields_of_parts (opc := 0x13) (by decide)
theorem getPosUp (idx : Nat) : Statement (.getPosUp idx) := fields_of_parts (opc := 0x14) (by decide)
theorem setPosUp (idx : Nat) : Statement (.setPosUp idx) := fields_of_parts (opc := 0x15) (by decide)
theorem getPosDown (idx : Nat) : Statement (.getPosDown idx) := fields_of_parts (opc := 0x16) (by decide)
theorem setPosDown (idx : Nat) : Statement (.setPosDown idx) := fields_of_parts (opc := 0x17) (by decide)
theorem getWinA (idx : Nat) : Statement (.getWinA idx) := fields_of_parts (opc := 0x18) (by decide)
theorem setWinA (idx : Nat) : Statement (.setWinA idx) := fields_of_parts (opc := 0x19) (by decide)
theorem getWinB (idx : Nat) : Statement (.getWinB idx) := fields_of_parts (opc := 0x1A) (by decide)
theorem setWinB (idx : Nat) : Statement (.setWinB idx) := fields_of_parts (opc := 0x1B) (by decide)
theorem getLeap (idx : Nat) : Statement (.getLeap idx) := fields_of_parts (opc := 0x1C) (by decide)
theorem setLeap (idx : Nat) : Statement (.setLeap idx) := fields_of_parts (opc := 0x1D) (by decide)

end Sys2Proof.Laws.RowBits
end

