-- ==== Sys2Proof/Laws/Ring.lean ====
section
/-! SUPPORT. What a ring's codec does, in closed form (spec/41_register_ring.md R91, R92). -/

namespace Sys2Proof.Machine

open Sys2Proof.Safety

variable {n : Nat}

@[simp] theorem ringOf_ringReg (i : Fin n) (l : Fin 4) : ringOf (ringReg i l) = i := by
  simp only [ringOf, ringReg, Fin.ext_iff]; omega

@[simp] theorem localOf_ringReg (i : Fin n) (l : Fin 4) : localOf (ringReg i l) = l := by
  simp only [localOf, ringReg, Fin.ext_iff]; omega

@[simp] theorem ringReg_ringOf (g : RegIndex n) : ringReg (ringOf g) (localOf g) = g := by
  simp only [localOf, ringOf, ringReg, Fin.ext_iff]; omega

/-- The output block is the input under the ring's keystream. -/
theorem ringCodecEnc_block (i : Fin n) (x : Block × RegFile n) :
    (ringCodecEnc i x).1 = blockXor x.1 (keystream x.2 i) := by
  obtain ⟨⟨w0, w1⟩, rf⟩ := x
  simp only [ringCodecEnc, bitsEncode_fst, bitsEncode_get, ringReg_inj, blockXor, keystream, Block.mk.injEq]
  simp [← cat32_xor]

/-- The ring's four registers keep their states and take the transients of their window; no other register changes. -/
theorem ringCodecEnc_regs (i : Fin n) (x : Block × RegFile n) (g : RegIndex n) :
    reg (ringCodecEnc i x).2 g =
      if ringOf g = i then
        { reg x.2 g with
          lastInput := window x.1 (localOf g), lastOutput := window x.1 (localOf g) ^^^ lo32 (reg x.2 g).state }
      else reg x.2 g := by
  obtain ⟨i', l, rfl⟩ : ∃ i' l, g = ringReg i' l := ⟨ringOf g, localOf g, by simp⟩
  simp only [ringCodecEnc, bitsEncode_get, ringReg_inj, ringOf_ringReg, localOf_ringReg]
  by_cases h : i' = i
  · subst h
    fin_cases l <;> simp [window]
  · simp [h, Ne.symm h]

/-- Decode is the same transformation of block and registers (R92). -/
theorem ringCodecDec_eq_ringCodecEnc (i : Fin n) (x : Block × RegFile n) :
    ringCodecDec i x = ringCodecEnc i x := rfl

end Sys2Proof.Machine
end

