-- ==== Sys2Proof/Laws/Transforms.lean ====
section
/-! SUPPORT. What one hop, one bit assignment and the Walsh mask do. -/

namespace Sys2Proof.Machine

variable {n : Nat}

/-- Assigning one bit of a 128-bit value. -/
theorem setBlockBit_getLsbD (B : BitVec 128) (p j : Fin 128) (v : Bool) :
    (setBlockBit B p v).getLsbD j = if p = j then v else B.getLsbD j := by
  have hj := j.isLt
  have hp : (BitVec.twoPow 128 p).getLsbD j = decide (p = j) := by
    simp [hj, Fin.ext_iff, eq_comm]
  cases v
  · simp only [setBlockBit, Bool.false_eq_true, if_false, BitVec.getLsbD_and, BitVec.getLsbD_not, hp, hj]
    by_cases h : p = j <;> simp [h]
  · simp only [setBlockBit, if_true, BitVec.getLsbD_or, hp]
    by_cases h : p = j <;> simp [h]

/-- `swapStates` exchanges the two states and changes nothing else. -/
theorem swapStates_get (rf : RegFile n) (i j g : RegIndex n) :
    reg (swapStates rf i j) g = { reg rf g with state := (reg rf (Equiv.swap i j g)).state } :=
  swapped_states_get rf i j g

/-- One hop exchanges two states when its entry is a valid index, and changes nothing otherwise. -/
theorem hopStep_get (hop : Vector (BitVec 16) (4 * n)) (rf : RegFile n) (i g : RegIndex n) :
    reg (hopStep hop rf i) g =
      if h : hop[i].toNat < 4 * n then
        { reg rf g with state := (reg rf (Equiv.swap i ⟨hop[i].toNat, h⟩ g)).state }
      else reg rf g := by
  unfold hopStep
  split
  · exact swapStates_get rf i _ g
  · rfl

/-- The Walsh mask is its own inverse (R100). -/
@[simp] theorem walshMask_walshMask (cfg : Config) (w : BitVec 7) (b : Block) :
    walshMask cfg w (walshMask cfg w b) = b := blockXor_cancel b _

end Sys2Proof.Machine
end

