-- ==== Sys2Proof/Tests/Slice0.lean ====
section
/-! SUPPORT. The model's own tests, each one step or less, and for every statement with hypotheses a witness that meets
them. Expected values are the printed ones of spec/95_test_vectors.md (and the worked examples of the rules it cites),
on the test instantiation of its section 1: `N = 2`, the table WALSH_T, the maps ILV_ID and ILV_ROT, a scripted key
schedule. Those test values are the spec's inventions, not the hardware's. -/

namespace Sys2Proof.Tests

open Sys2Proof.Machine Sys2Proof.Safety

set_option Elab.async false

/-! ## The fixture (section 1 and section 4 of the vectors) -/

/-- WALSH_T. -/
def walshT : Vector Block 128 := Vector.ofFn fun w =>
  if w.val = 0 then ⟨0, 0⟩
  else ⟨BitVec.ofNat 64 (w.val * 0x0101010101010101), ~~~ BitVec.ofNat 64 (w.val * 0x0101010101010101)⟩

theorem walshT_zero : walshT[0] = ⟨0, 0⟩ := Vector.getElem_ofFn (by decide)

/-- ILV_ID. -/
def ilvId : Vector (Fin 128) 128 := Vector.ofFn fun j => j

/-- ILV_ROT. -/
def ilvRot : Vector (Fin 128) 128 := Vector.ofFn fun j => j + 1

theorem ilvId_nodup : ilvId.toList.Nodup := by decide +kernel

theorem ilvRot_nodup : ilvRot.toList.Nodup := by decide +kernel

/-- The password the scripted key schedule accepts. -/
def pw1 : Password := ['p', 'w', '1']

/-- The password it rejects. -/
def bad : Password := ['b', 'a', 'd']

/-- The answers of the scripted key schedule to `pw1` (section 4). -/
def script : KsScript where
  u64s := [0x0123456789ABCDEF, 0xFEDCBA9876543210, 0x0F1E2D3C4B5A6978, 0x8796A5B4C3D2E1F0,
    0x1111111122222222, 0x3333333344444444, 0x5555555566666666, 0x7777777788888888]
  bounded := [2] ++ [3, 0, 5, 1, 1, 2] ++ [7, 6, 5, 4, 3, 2] ++ [2, 5, 0, 3, 1, 0] ++ [0, 1, 2, 3, 4, 5, 6, 7] ++
    [31, 30, 29, 28, 27, 26, 25, 24] ++ [8, 9, 10, 11, 12, 13, 14, 15] ++ [16, 17, 18, 19, 20, 21, 22, 23] ++
    [1, 2, 3, 4, 5, 14, 0, 7] ++ [85]

/-- The test instance with the Interleave map `ilv`. -/
def testCfg (ilv : Vector (Fin 128) 128) (h : ilv.toList.Nodup) : Config where
  n := 2
  two_le_n := by decide
  n_le := by decide
  walsh := walshT
  walsh_zero := walshT_zero
  ilv := ilv
  ilv_nodup := h
  ks := [(pw1, .accept script), (bad, .reject)]

/-- With ILV_ID. -/
def cfgT : Config := testCfg ilvId ilvId_nodup

/-- With ILV_ROT. -/
def cfgRot : Config := testCfg ilvRot ilvRot_nodup

/-- The test instance after power-on with the given operand ports. -/
def powered (din0 din1 : U64) (pwd : Password) : State :=
  { State.powerOn cfgT with ports := ⟨din0, din1, pwd⟩ }

/-- The port a REKEY with `pw1` opens. -/
def scriptPort : KsPort := ⟨pw1, [], script.u64s, script.bounded⟩

/-- The registers, tables and Walsh index of configuration K1 (section 4): the test instance keyed with `pw1`. -/
def k1 : Cascade 2 := commitKey (drawKey 2 scriptPort).1 (Cascade.powerOn 2)

/-- The test instance keyed with `pw1`. -/
def keyed (din0 din1 : U64) : State := ⟨cfgT, k1, ⟨din0, din1, pw1⟩, [], none⟩

/-- The response of an outcome, as status and data words. -/
def response : Host.Outcome State Fault Refusal → Option (Nat × Nat × Nat)
  | .next t => t.resp.map fun r => (r.status.toNat, r.dout0.toNat, r.dout1.toNat)
  | _ => none

/-- The states of all registers after an outcome. -/
def states : Host.Outcome State Fault Refusal → List U64
  | .next t => t.cascade.regs.toList.map (·.state)
  | _ => []

/-- A field of register `g` after an outcome. -/
def field (o : Host.Outcome State Fault Refusal) (g : Nat) (f : {n : Nat} → Reg n → Nat) : Option Nat :=
  match o with
  | .next t => (t.cascade.regs.toList.map fun r => f r)[g]?
  | _ => none

/-! ## Well-formedness and decoding -/

/-- WellFormed has one check: an index that does not fit `IDX` is refused, in every accessor. -/
theorem test_illFormed_index_refused : ¬ (Instr.getSeed 0x10000).WellFormed ∧ ¬ (Instr.setLeap 0x10000).WellFormed := by
  decide

theorem test_index_at_the_top_wellFormed : (Instr.getSeed 0xFFFF).WellFormed := by decide

/-! The words below are written as their three fields `OPC`, `RSV`, `IDX` (R61), the codes from the table of R63. -/

theorem test_decode_rekey : decode (0x01#8 ++ 0x00#8 ++ 0x0000#16) = .ok .rekey := by decide
theorem test_decode_reset : decode (0x02#8 ++ 0x00#8 ++ 0x0000#16) = .ok .reset := by decide
theorem test_decode_enc : decode (0x03#8 ++ 0x00#8 ++ 0x0000#16) = .ok .enc := by decide
theorem test_decode_dec : decode (0x04#8 ++ 0x00#8 ++ 0x0000#16) = .ok .dec := by decide
theorem test_decode_numSeeds : decode (0x05#8 ++ 0x00#8 ++ 0x0000#16) = .ok .numSeeds := by decide
theorem test_decode_getSeed : decode (0x10#8 ++ 0x00#8 ++ 0x0002#16) = .ok (.getSeed 2) := by decide
theorem test_decode_setSeed : decode (0x11#8 ++ 0x00#8 ++ 0x8001#16) = .ok (.setSeed 0x8001) := by decide
theorem test_decode_getState : decode (0x12#8 ++ 0x00#8 ++ 0x0007#16) = .ok (.getState 7) := by decide
theorem test_decode_setState : decode (0x13#8 ++ 0x00#8 ++ 0x0008#16) = .ok (.setState 8) := by decide
theorem test_decode_getPosUp : decode (0x14#8 ++ 0x00#8 ++ 0x0000#16) = .ok (.getPosUp 0) := by decide
theorem test_decode_setPosUp : decode (0x15#8 ++ 0x00#8 ++ 0x0001#16) = .ok (.setPosUp 1) := by decide
theorem test_decode_getPosDown : decode (0x16#8 ++ 0x00#8 ++ 0x0000#16) = .ok (.getPosDown 0) := by decide
theorem test_decode_setPosDown : decode (0x17#8 ++ 0x00#8 ++ 0x0100#16) = .ok (.setPosDown 256) := by decide
theorem test_decode_getWinA : decode (0x18#8 ++ 0x00#8 ++ 0x0005#16) = .ok (.getWinA 5) := by decide
theorem test_decode_setWinA : decode (0x19#8 ++ 0x00#8 ++ 0x0005#16) = .ok (.setWinA 5) := by decide
theorem test_decode_getWinB : decode (0x1A#8 ++ 0x00#8 ++ 0x0005#16) = .ok (.getWinB 5) := by decide
theorem test_decode_setWinB : decode (0x1B#8 ++ 0x00#8 ++ 0x0005#16) = .ok (.setWinB 5) := by decide
theorem test_decode_getLeap : decode (0x1C#8 ++ 0x00#8 ++ 0x0005#16) = .ok (.getLeap 5) := by decide
theorem test_decode_setLeap : decode (0x1D#8 ++ 0x00#8 ++ 0xFFFF#16) = .ok (.setLeap 0xFFFF) := by decide

/-- One word of every class (R69), bit 31 down to bit 0. -/
theorem test_decode_bits :
    decode 0b00000100000000000000000000000000 = .ok .dec ∧
    decode 0b00000010000000000000000000000000 = .ok .reset ∧
    decode 0b00000101000000000000000000000000 = .ok .numSeeds ∧
    decode 0b00010010000000000000000000000111 = .ok (.getState 7) ∧
    decode 0b00011011000000001000000000000001 = .ok (.setWinB 0x8001) := by decide

/-- The words of section 3.6 that match no row, and the first reserved codes of R65. -/
theorem test_decode_rejects :
    decode 0x00000000 = .error .unknownOpcode ∧ decode 0x06000000 = .error .unknownOpcode ∧
    decode 0x1E000000 = .error .unknownOpcode ∧ decode 0x0F000000 = .error .unknownOpcode ∧
    decode 0xFF000000 = .error .unknownOpcode ∧ decode 0x10010000 = .error .reservedNotZero ∧
    decode 0x03000001 = .error .indexNotZero ∧ decode 0x0100FFFF = .error .indexNotZero := by decide

theorem test_encode_words : encode (.setLeap 0xFFFF) = 0x1D00FFFF ∧ encode .enc = 0x03000000 := by decide

/-- The host's view of the decoder: bit 0 of the number is bit 0 of `CMD`. -/
theorem test_decodeTableWord :
    decodeTableWord 32 0x12000007 = some (.getState 7) ∧ decodeTableWord 32 0x10010000 = none := by decide

/-! ## One step of each command -/

/-- `withFetchWord` runs exactly the given word as the next step, here NUMSEEDS on the hardware's default instance:
`N = 9`, `K = 36` (R150). -/
theorem test_numSeeds_first_after_reset :
    response (step (State.reset.withFetchWord 32 0x05000000)) = some (0, 36, 0) := by decide +kernel

/-- An undecodable word is answered and the core goes on (R174). -/
theorem test_illegal_word_answered :
    response (step (State.reset.withFetchWord 32 0x00000000)) = some (3, 0, 0) := by decide +kernel

theorem test_numSeeds_two_rings : response (exec .numSeeds (powered 0 0 [])) = some (0, 8, 0) := by decide +kernel

/-- REKEY from the script gives K1: the seeds become the states, and register 5 has `leap` 14. -/
theorem test_rekey_states : states (exec .rekey (powered 0 0 pw1)) =
    [0x0123456789ABCDEF, 0xFEDCBA9876543210, 0x0F1E2D3C4B5A6978, 0x8796A5B4C3D2E1F0,
      0x1111111122222222, 0x3333333344444444, 0x5555555566666666, 0x7777777788888888] := by decide +kernel

theorem test_rekey_rejected : response (exec .rekey (powered 0 0 bad)) = some (1, 0, 0) := by decide +kernel

/-- The rest of K1 (section 4): the cross code, the hop table, the Walsh index and both link tables. -/
theorem test_keyed_tables : k1.cross.toList = [2] ∧ k1.hop.toList = [3, 0, 7, 2, 4, 6, 5, 1] ∧ k1.walshIndex = 85 ∧
    (k1.regs.toList.map (·.upLink.val)) = [7, 6, 5, 4, 3, 2, 1, 0] ∧
    (k1.regs.toList.map (·.downLink.val)) = [2, 6, 0, 5, 3, 1, 7, 4] := by decide +kernel

/-- P1, the first ENC after the key. -/
theorem test_enc_output : response (exec .enc (keyed 0 0)) =
    some (0, 0x98BADCFE01234567, 0x69784B5A0F1E2D3C) := by decide +kernel

/-- P1, the states after its first ENC: clocks in order, then the hop pass. -/
theorem test_enc_states : states (exec .enc (keyed 0 0)) =
    [0x6E953FA61D950C84, 0x1E493B15096B4D2F, 0x7016705244D5E6F7, 0x11DAA2E5EF111111,
      0x4367100E09111111, 0x68FC0566CCCD1111, 0x700FE10366666666, 0x6780F5A54C3D2E1F] := by decide +kernel

/-- P2, the first DEC: the block comes back, and the states are those of the encoder. -/
theorem test_dec_output :
    response (exec .dec (keyed 0x98BADCFE01234567 0x69784B5A0F1E2D3C)) = some (0, 0, 0) := by decide +kernel

theorem test_dec_states : states (exec .dec (keyed 0x98BADCFE01234567 0x69784B5A0F1E2D3C)) =
    [0x6E953FA61D950C84, 0x1E493B15096B4D2F, 0x7016705244D5E6F7, 0x11DAA2E5EF111111,
      0x4367100E09111111, 0x68FC0566CCCD1111, 0x700FE10366666666, 0x6780F5A54C3D2E1F] := by decide +kernel

/-- ENC and DEC before any key (section 3.6). -/
theorem test_unkeyed_refused : response (exec .enc (powered 1 2 [])) = some (2, 0, 0) ∧
    response (exec .dec (powered 1 2 [])) = some (2, 0, 0) := by decide +kernel

/-- P6, ENC with ILV_ROT. -/
theorem test_enc_output_rotated :
    response (exec .enc ⟨cfgRot, k1, ⟨0, 0, []⟩, [], none⟩) =
      some (0, 0x67452300FEDCBA98, 0x9687B4A4F0E1D2C3) := by decide +kernel

/-- K1 with another seed in register 3. -/
def reseeded : Cascade 2 := { k1 with regs := updateReg k1.regs 3 fun r => { r with seed := 77 } }

/-- RESET copies a changed seed into the state (R138). -/
theorem test_reset_uses_the_current_seed :
    field (exec .reset ⟨cfgT, reseeded, ⟨0, 0, []⟩, [], none⟩) 3 (fun r => r.state.toNat) = some 77 := by decide +kernel

theorem test_getSeed : response (exec (.getSeed 2) (keyed 0 0)) = some (0, 0x0F1E2D3C4B5A6978, 0) := by decide +kernel
theorem test_getSeed_outOfRange : response (exec (.getSeed 8) (keyed 0 0)) = some (0, 0, 0) := by decide +kernel
theorem test_setSeed : field (exec (.setSeed 0) (powered 0xDEADBEEFCAFEF00D 1 [])) 0 (fun r => r.seed.toNat) =
    some 0xDEADBEEFCAFEF00D := by decide +kernel
theorem test_setSeed_keeps_state : field (exec (.setSeed 0) (powered 0xDEADBEEFCAFEF00D 1 [])) 0
    (fun r => r.state.toNat) = some 0 := by decide +kernel
theorem test_getState : response (exec (.getState 7) (keyed 0 0)) = some (0, 0x7777777788888888, 0) := by
  decide +kernel
theorem test_setState : field (exec (.setState 3) (powered 0xFFFFFFFFFFFFFFFF 0 [])) 3 (fun r => r.state.toNat) =
    some 0xFFFFFFFFFFFFFFFF := by decide +kernel
theorem test_setState_outOfRange : states (exec (.setState 8) (powered 5 0 [])) = [0, 0, 0, 0, 0, 0, 0, 0] := by
  decide +kernel
theorem test_getPosUp : response (exec (.getPosUp 7) (keyed 0 0)) = some (0, 7, 0) := by decide +kernel
theorem test_setPosUp_truncates : field (exec (.setPosUp 1) (powered 37 0 [])) 1 (fun r => r.posUp.toNat) =
    some 5 := by decide +kernel
theorem test_getPosDown : response (exec (.getPosDown 0) (keyed 0 0)) = some (0, 31, 0) := by decide +kernel
theorem test_setPosDown : field (exec (.setPosDown 7) (powered 31 0 [])) 7 (fun r => r.posDown.toNat) =
    some 31 := by decide +kernel
theorem test_getWinA : response (exec (.getWinA 3) (keyed 0 0)) = some (0, 11, 0) := by decide +kernel
theorem test_setWinA_truncates : field (exec (.setWinA 5) (powered 0x3F 0 [])) 5 (fun r => r.winA.toNat) =
    some 31 := by decide +kernel
theorem test_getWinB : response (exec (.getWinB 3) (keyed 0 0)) = some (0, 19, 0) := by decide +kernel
theorem test_setWinB_truncates : field (exec (.setWinB 5) (powered 0x20 0 [])) 5 (fun r => r.winB.toNat) =
    some 0 := by decide +kernel
theorem test_getLeap_after_powerOn : response (exec (.getLeap 0) (powered 0 0 [])) = some (0, 1, 0) := by
  decide +kernel
theorem test_getLeap : response (exec (.getLeap 5) (keyed 0 0)) = some (0, 14, 0) := by decide +kernel
theorem test_setLeap_truncates : field (exec (.setLeap 2) (powered 0x1F 0 [])) 2 (fun r => r.leap.toNat) =
    some 15 := by decide +kernel
theorem test_setLeap_keeps_zero : field (exec (.setLeap 2) (powered 0x10 0 [])) 2 (fun r => r.leap.toNat) =
    some 0 := by decide +kernel

/-! ## The parts (sections 2.1 and 3.1 to 3.5 of the vectors) -/

/-- Vector SR1's registers: a general case. -/
def sr1 : RegFile 1 := Vector.ofFn fun g =>
  { Reg.powerOn g with
    state := [0x0123456789ABCDEF#64, 0xFEDCBA9876543210#64, 0#64, 0x0F1E2D3C4B5A6978#64].getD g 0
    winA := 4
    winB := 12
    posUp := 8
    posDown := 20
    leap := 3 }

theorem test_window_and_codec : getWindow sr1 0 4 = 0x789ABCDE ∧ getWindow sr1 3 20 = 0xE2D3C4B5 ∧
    (bitsEncode sr1 0 0xDEADBEEF).1 = 0x57067300 ∧ (bitsDecode sr1 0 0x57067300).1 = 0xDEADBEEF := by decide +kernel

theorem test_clock : (reg (clockForward (bitsEncode sr1 0 0xDEADBEEF).2 0) 0).state = 0x45516CA9F13579BD ∧
    (reg (clockBackward (bitsEncode sr1 0 0xDEADBEEF).2 0) 0).state = 0x01848A5E713579BD := by decide +kernel

/-- Vectors SR2 to SR4: register 0 all ones, its neighbours `up` and `down`. -/
def corner (leap : BitVec 4) (winA pos : BitVec 5) (up down : U64) (lastInput : U32) : RegFile 1 :=
  Vector.ofFn fun g =>
    { Reg.powerOn g with
      state := [BitVec.allOnes 64, up, 0#64, down].getD g 0
      leap := leap
      winA := winA
      posUp := pos
      posDown := pos
      lastInput := lastInput }

theorem test_clock_corners :
    (reg (clockForward (corner 0 0 0 0 0 0) 0) 0).state = 0xFFFFFFFFFFFFFFFF ∧
    (reg (clockForward (corner 14 0 0 0 0 0xFFFFFFFF) 0) 0).state = 0x7FFC00007FFFFFFF ∧
    (reg (clockForward (corner 15 31 31 0x8000000000000000 0x4000000000000000 0) 0) 0).state =
      0x4001FFFFFFFFFFFF := by decide +kernel

/-- Vector RG1: a ring's codec and its sequential clock pass. -/
def rg1 : RegFile 1 := Vector.ofFn fun g =>
  { Reg.powerOn g with
    state := [0x0123456789ABCDEF#64, 0xFEDCBA9876543210#64, 0x0F1E2D3C4B5A6978#64, 0x8796A5B4C3D2E1F0#64].getD g 0 }

theorem test_ring_codec : (ringCodecEnc 0 (⟨0x1122334455667788, 0x99AABBCCDDEEFF00⟩, rg1)).1 =
    ⟨0x67760154DCCDBA67, 0x5A785A3C96B49678⟩ := by decide +kernel

theorem test_ring_clock_is_sequential :
    (clockAllForward (ringCodecEnc 0 (⟨0x1122334455667788, 0x99AABBCCDDEEFF00⟩, rg1)).2 0).toList.map (·.state) =
      [0x70E1F087C4D5E6F7, 0x30388329BB2A1908, 0x5504156225AD34BC, 0x7FA26619E1E970F8] := by decide +kernel

theorem test_walshMask : walshMask cfgT 85 ⟨0, 0⟩ = ⟨0x5555555555555555, 0xAAAAAAAAAAAAAAAA⟩ ∧
    walshMask cfgT 127 ⟨0, 0⟩ = ⟨0x7F7F7F7F7F7F7F7F, 0x8080808080808080⟩ := by decide +kernel

theorem test_interleave :
    interleave cfgRot ⟨0x8000000000000001, 0x8000000000000000⟩ = ⟨0x0000000000000003, 0x0000000000000001⟩ ∧
    deInterleave cfgRot ⟨0x0000000000000003, 0x0000000000000001⟩ = ⟨0x8000000000000001, 0x8000000000000000⟩ := by
  decide +kernel

theorem test_crossPermute : let b : Block := ⟨0x0123456789ABCDEF, 0xFEDCBA9876543210⟩
    crossPermute 0 b = ⟨0x01234567FEDCBA98, 0x89ABCDEF76543210⟩ ∧
    crossPermute 1 b = ⟨0x7654321089ABCDEF, 0xFEDCBA9801234567⟩ ∧
    crossPermute 2 b = ⟨0x89ABCDEF01234567, 0x76543210FEDCBA98⟩ ∧
    crossPermute 3 b = ⟨0x76543210FEDCBA98, 0x89ABCDEF01234567⟩ := by decide +kernel

/-- The example of R107: each register's state is its number, one hop pass. -/
theorem test_hopSeeds :
    (hopSeeds (n := 2) #v[3, 0, 7, 2, 4, 6, 5, 1]
      (Vector.ofFn fun g => { Reg.powerOn g with state := BitVec.ofNat 64 g })).toList.map (·.state) =
      [1, 2, 0, 7, 4, 5, 6, 3] := by decide +kernel

/-- The same pass as a permutation of register numbers. -/
theorem test_hopOrder : (List.finRange 8).map (fun g => (hopOrder (n := 2) #v[3, 0, 7, 2, 4, 6, 5, 1] g).val) =
    [1, 2, 0, 7, 4, 5, 6, 3] := by decide +kernel

/-- Rows of section 3.5: `RandomPermutation(8)`, its draws known. -/
theorem test_randomPermutation :
    (randomPermutation 8 ⟨[], [], [], [3, 0, 5, 1, 1, 2]⟩).1.toList.map (·.val) = [3, 0, 7, 2, 4, 6, 5, 1] ∧
    (randomPermutation 8 ⟨[], [], [], [2, 5, 0, 3, 1, 0]⟩).1.toList.map (·.val) = [2, 6, 0, 5, 3, 1, 7, 4] ∧
    (randomPermutation 3 ⟨[], [], [], [1]⟩).1.toList.map (·.val) = [1, 2, 0] ∧
    (randomPermutation 2 ⟨[], [], [], []⟩).1.toList.map (·.val) = [1, 0] := by decide +kernel

/-- The same rows on the list form the statements use. -/
theorem test_permutationOf : permutationOf [3, 0, 5, 1, 1, 2] (List.range 8) = [3, 0, 7, 2, 4, 6, 5, 1] ∧
    permutationOf [7, 6, 5, 4, 3, 2] (List.range 8) = [7, 6, 5, 4, 3, 2, 1, 0] := by decide

/-- Draw counts (section 3.5): 8 and 60 for `N = 2`, 36 and 291 for `N = 9`. -/
theorem test_drawCounts : (keyRequests 2).countP (· == .u64) = 8 ∧ (keyRequests 2).length = 68 ∧
    (keyRequests 9).countP (· == .u64) = 36 ∧ (keyRequests 9).length = 327 := by decide +kernel

/-! ## Witnesses: a state and operands that meet the hypotheses of each statement that has some -/

/-- `s` with one command presented. -/
def presented (s : State) (cmd : BitVec 32) (pwd : Password) : State := { s with pending := [⟨cmd, 1, 2, pwd⟩] }

/-- The outcome is a next state that passes `p`. -/
def nextAnd (o : Host.Outcome State Fault Refusal) (p : State → Bool) : Bool :=
  match o with
  | .next t => p t
  | _ => false

theorem exists_of_nextAnd {o : Host.Outcome State Fault Refusal} {p : State → Bool} (h : nextAnd o p = true) :
    ∃ t, o = .next t ∧ p t = true := by
  unfold nextAnd at h
  split at h
  · exact ⟨_, rfl, h⟩
  · cases h

theorem exists_next {o : Host.Outcome State Fault Refusal} (h : nextAnd o (fun _ => true) = true) : ∃ t, o = .next t :=
  (exists_of_nextAnd h).imp fun _ h => h.1

theorem forall_mem_of_all {α : Type} {l : List α} {p : α → Prop} [DecidablePred p]
    (h : l.all (fun x => decide (p x)) = true) : ∀ x ∈ l, p x := by simpa using h

/-- K1 with another value in every transient. -/
def otherTransients : Cascade 2 :=
  { k1 with regs := k1.regs.map fun r => { r with lastInput := 5, lastOutput := 6 } }

theorem witness_DecodeEncodeRoundTrip : (Instr.setLeap 0xFFFF).WellFormed ∧ Instr.rekey.WellFormed := by decide

theorem witness_EncodeDecodeRoundTrip : decode 0x1D00FFFF = .ok (.setLeap 0xFFFF) ∧ decode 0x01000000 = .ok .rekey := by
  decide

/-- The first and the last row, matched by a word at the ends of their index range. -/
theorem witness_DecodeFollowsTheOpcodeMap :
    (∃ row ∈ opcodeRows, 0x01000000#32 &&& row.2.1 = row.1 ∧ Instr.rekey = row.2.2 0) ∧
    (∃ row ∈ opcodeRows, 0x1D00FFFF#32 &&& row.2.1 = row.1 ∧ Instr.setLeap 0xFFFF = row.2.2 0xFFFF) :=
  ⟨⟨(0x01000000, 0xFFFFFFFF, fun _ => .rekey), by simp [opcodeRows], by decide, rfl⟩,
    ⟨(0x1D000000, 0xFFFF0000, .setLeap), by simp [opcodeRows], by decide, rfl⟩⟩

/-- Words of each of the three ways of being illegal, at the ends of the reserved ranges. -/
theorem witness_IllegalWordsAreErrIllegal :
    (∀ w ∈ [0x00000000#32, 0x06000000#32, 0x0F000000#32, 0x1E000000#32, 0xFF000000#32],
      (w >>> 24).toNat ∉ [0x01, 0x02, 0x03, 0x04, 0x05] ∧ ((w >>> 24).toNat < 0x10 ∨ 0x1D < (w >>> 24).toNat)) ∧
    (∀ w ∈ [0x01010000#32, 0x1DFF0000#32], (w >>> 16).setWidth 8 ≠ 0#8) ∧
    (∀ w ∈ [0x01000001#32, 0x0500FFFF#32],
      (w >>> 24).toNat ∈ [0x01, 0x02, 0x03, 0x04, 0x05] ∧ w.setWidth 16 ≠ 0#16) ∧
    (presented (keyed 0 0) 0x06000000 []).pending = [⟨0x06000000, 1, 2, []⟩] := by
  refine ⟨by simp, by simp, by simp, rfl⟩

theorem witness_StepExecutesTheDecodedCommand :
    (presented (keyed 0 0) 0x03000000 []).pending = [⟨0x03000000, 1, 2, []⟩] ∧ decode 0x03000000 = .ok .enc :=
  ⟨rfl, by decide⟩

theorem witness_IdleCoreWaits : State.reset.pending = [] ∧ (keyed 0 0).pending = [] := ⟨rfl, rfl⟩

theorem witness_EveryCommandCompletesWithAResponse :
    (presented State.reset 0x01000000 pw1).pending = [⟨0x01000000, 1, 2, pw1⟩] := rfl

/-- The last index in range and the first one out of range, on the test instance and on the default one. -/
theorem witness_GetSeedAndGetStateAnswerTheField :
    7 < 4 * (keyed 0 0).cfg.n ∧ 4 * (keyed 0 0).cfg.n ≤ 8 ∧ 35 < 4 * State.reset.cfg.n ∧ 4 * State.reset.cfg.n ≤ 36 := by
  decide

theorem witness_GetParametersAnswerTheFieldZeroExtended :
    7 < 4 * (keyed 0 0).cfg.n ∧ 4 * (keyed 0 0).cfg.n ≤ 8 ∧ 4 * (keyed 0 0).cfg.n ≤ 0xFFFF := by decide

theorem witness_GetAfterSetAnswersTheTruncatedOperand : 7 < 4 * (keyed 0 0).cfg.n ∧
    (Instr.setLeap 7, Instr.getLeap 7, 15#64) ∈ [(Instr.setSeed 7, Instr.getSeed 7, 0xFFFFFFFFFFFFFFFF#64),
      (.setState 7, .getState 7, 0xFFFFFFFFFFFFFFFF#64), (.setPosUp 7, .getPosUp 7, 31#64),
      (.setPosDown 7, .getPosDown 7, 31#64), (.setWinA 7, .getWinA 7, 31#64),
      (.setWinB 7, .getWinB 7, 31#64), (.setLeap 7, .getLeap 7, 15#64)] := by decide

/-- A listed rejected password; and an unlisted one is rejected or accepted by its free verdict. -/
theorem witness_RejectedRekeyChangesNothing : Rejects (powered 0 0 bad).cfg (powered 0 0 bad).ports.pwd ∧
    (Rejects Config.default [] ∨ Accepts Config.default []) := by
  refine ⟨Or.inl (by decide +kernel), ?_⟩
  cases h : Config.ksAccepts []
  · exact .inl (.inr ⟨rfl, h⟩)
  · exact .inr (.inr ⟨rfl, h⟩)

theorem accepts_pw1 : Accepts cfgT pw1 := Or.inl ⟨script, by decide +kernel⟩

theorem witness_AcceptedRekeyEstablishesTheKey : Accepts (powered 0 0 pw1).cfg (powered 0 0 pw1).ports.pwd := accepts_pw1

/-- The script of section 4 is known, has every draw of the three permutations in range, and answers the last request
of every step (steps (f) to (k) start at draw `1 + 3 * 6`). -/
theorem witness_RekeyConsumesTheDrawsInOrder :
    (powered 0 0 pw1).cfg.ks.lookup (powered 0 0 pw1).ports.pwd = some (.accept script) ∧
    script.bounded[0]? = some 2 ∧
    (∀ o ∈ [1, 7, 13], ((script.bounded.drop o).take 6).length = 6 ∧
      ∀ t < 6, (((script.bounded.drop o).take 6)[t]?).all (· ≤ 7 - t) = true) ∧
    script.u64s[7]? = some 0x7777777788888888 ∧ script.bounded[19 + 7]? = some 7 ∧
    script.bounded[19 + 8 + 7]? = some 24 ∧ script.bounded[19 + 16 + 7]? = some 15 ∧
    script.bounded[19 + 24 + 7]? = some 23 ∧ script.bounded[19 + 32 + 7]? = some 7 ∧
    script.bounded[19 + 40]? = some 85 := by decide +kernel

theorem witness_RekeyIssuesTheSpecifiedRequests : 2 ≤ cfgT.n ∧ 2 ≤ State.reset.cfg.n := by decide

/-- The least `k`, and a `k` with a draw. -/
theorem witness_RandomPermutationIsABijectionWithDescendingTail : 2 ≤ 2 ∧ 2 ≤ 4 * cfgT.n := by decide

theorem witness_RekeyForgetsTheOldKey : Accepts (keyed 0 0).cfg (keyed 0 0).ports.pwd := accepts_pw1

theorem witness_UnkeyedBlockCommandsAreRefused : (powered 1 2 []).cascade.keyed = false ∧
    State.reset.cascade.keyed = false := ⟨rfl, rfl⟩

theorem witness_EncRefinesTheClosedForm : (keyed 1 2).cascade.keyed = true := by decide +kernel

theorem witness_DecRefinesTheClosedForm : (keyed 1 2).cascade.keyed = true := by decide +kernel

/-- A peer that differs from the encoder in a seed and in the transients only. -/
theorem witness_DecodeUndoesEncode : (keyed 1 2).cascade.keyed = true ∧ reseeded.keyed = true ∧
    reseeded.walshIndex = (keyed 1 2).cascade.walshIndex ∧ reseeded.cross = (keyed 1 2).cascade.cross ∧
    ∀ g : RegIndex 2, (reg reseeded.regs g).state = (reg k1.regs g).state := by
  refine ⟨by decide +kernel, by decide +kernel, by decide +kernel, rfl, by decide +kernel⟩

theorem witness_LockstepIsKeptAlongABlockSequence : (keyed 1 2).cascade.keyed = true ∧
    Lockstep k1 reseeded ∧ Lockstep k1 otherTransients := by
  refine ⟨by decide +kernel, ?_, ?_⟩ <;> (unfold Lockstep; decide +kernel)

theorem witness_FreshlyKeyedInstancesRoundTrip : Accepts cfgT pw1 := accepts_pw1

theorem witness_OneInputBitFlipsOneOutputBit : (keyed 0 0).cascade.keyed = true := by decide +kernel

/-- Two different states that differ in transients only. -/
theorem witness_TransientsAreUnobservable : keyed 1 2 ≠ ⟨cfgT, otherTransients, ⟨1, 2, pw1⟩, [], none⟩ ∧
    eraseTransients (keyed 1 2) = eraseTransients ⟨cfgT, otherTransients, ⟨1, 2, pw1⟩, [], none⟩ := by
  decide +kernel

/-- Two different states that differ in seeds only. -/
theorem witness_BlockCommandsIgnoreTheSeeds : keyed 1 2 ≠ ⟨cfgT, reseeded, ⟨1, 2, pw1⟩, [], none⟩ ∧
    eraseSeeds (keyed 1 2) = eraseSeeds ⟨cfgT, reseeded, ⟨1, 2, pw1⟩, [], none⟩ := by decide +kernel

theorem witness_ResetReturnsToTheStandardPoint : (keyed 0 0).cascade.keyed = true ∧
    ∀ g : RegIndex 2, (reg k1.regs g).state = (reg k1.regs g).seed := by
  decide +kernel

theorem witness_ClockShiftsAndFoldsBitByBit :
    (clockBackward (n := 1), (reg sr1 0).lastOutput) ∈
      [(clockForward (n := 1), (reg sr1 0).lastInput), (clockBackward, (reg sr1 0).lastOutput)] ∧
    (3 : RegIndex 1) ≠ 0 := ⟨List.mem_cons_of_mem _ List.mem_cons_self, by decide⟩

theorem witness_CrossPermuteIsItsOwnInverse : (0 : BitVec 2) ≠ 3 := by decide

/-- A keyed and an unkeyed state that meet the invariant, each with a step to take. -/
theorem witness_EveryStepKeepsTheInvariant :
    (Inv (presented (keyed 0 0) 0x03000000 []) ∧ ∃ t, step (presented (keyed 0 0) 0x03000000 []) = .next t) ∧
    (Inv (presented (powered 0 0 []) 0x01000000 pw1) ∧
      ∃ t, step (presented (powered 0 0 []) 0x01000000 pw1) = .next t) := by
  refine ⟨⟨⟨by decide +kernel, by decide +kernel, by decide +kernel,
      fun _ => ⟨by decide +kernel, forall_mem_of_all (by decide +kernel)⟩, by decide +kernel, fun r h => nomatch h⟩,
      exists_next (by decide +kernel)⟩,
    ⟨⟨by decide +kernel, by decide +kernel, by decide +kernel, by decide +kernel,
      fun _ => ⟨by decide +kernel, forall_mem_of_all (by decide +kernel), by decide +kernel, by decide +kernel⟩,
      fun r h => nomatch h⟩, exists_next (by decide +kernel)⟩⟩

theorem witness_ConfigurationIsNeverWritten : ∃ t, step (presented (powered 0 0 []) 0x01000000 pw1) = .next t :=
  exists_next (by decide +kernel)

/-- A command for every clause of the matrix, on both sides of its condition. -/
theorem witness_OnlyTheNamedCommandsWriteEachField :
    (∀ i ∈ [Instr.enc, .dec, .reset, .numSeeds, .getLeap 0, .setSeed 0, .setLeap 0], i ≠ .rekey) ∧
    (∀ j, Instr.enc ≠ .setSeed j) ∧ (∀ j, Instr.setSeed 0 ≠ .setState j) ∧ Instr.setSeed 0 ∉ [.reset, .enc, .dec] ∧
    Instr.reset ∉ [Instr.enc, .dec] ∧ (∀ j, Instr.setLeap 0 ≠ .setPosUp j) ∧ (∀ j, Instr.setLeap 0 ≠ .setPosDown j) ∧
    (∀ j, Instr.setLeap 0 ≠ .setWinA j) ∧ (∀ j, Instr.setLeap 0 ≠ .setWinB j) ∧
    (∀ j, Instr.enc ≠ .setLeap j) := by simp

/-- A step that takes `keyed` from 0 to 1. -/
theorem witness_KeyedIsSetOnlyByAnAcceptedRekey :
    (∃ t, step (presented (powered 0 0 []) 0x01000000 pw1) = .next t ∧ t.cascade.keyed = true) ∧
    (powered 0 0 []).cascade.keyed = false := by
  exact ⟨exists_of_nextAnd (p := fun t => t.cascade.keyed) (by decide +kernel), rfl⟩

/-- One state for each of the three error codes. -/
theorem witness_ErrorsWriteNothing :
    response (step (presented (powered 0 0 []) 0x01000000 bad)) = some (1, 0, 0) ∧
    response (step (presented (powered 0 0 []) 0x03000000 [])) = some (2, 0, 0) ∧
    response (step (presented (keyed 0 0) 0x03000001 [])) = some (3, 0, 0) := by decide +kernel

/-- The scripted password opens with its script; an unlisted one that is accepted opens with nothing known. -/
theorem witness_RekeyStoresTheAnswerToEachRequest :
    OpensWith (powered 0 0 pw1).cfg (powered 0 0 pw1).ports.pwd script ∧
    (Rejects Config.default [] ∨ OpensWith Config.default [] ⟨[], []⟩) := by
  refine ⟨Or.inl (by decide +kernel), ?_⟩
  cases h : Config.ksAccepts []
  · exact .inl (.inr ⟨rfl, h⟩)
  · exact .inr (.inr ⟨rfl, h, rfl⟩)

/-- The answers of the script (section 4): the first seed, the cross code, the last leap and the Walsh draw. -/
theorem test_answers : u64Answer pw1 script 0 = 0x0123456789ABCDEF ∧ boundedAnswer pw1 script 2 0 3 = 2 ∧
    boundedAnswer pw1 script 2 (19 + 32 + 7) 14 = 7 ∧ boundedAnswer pw1 script 2 (19 + 40) 127 = 85 := by
  decide +kernel

theorem witness_WindowsAreTheQuartersOfTheBlock : 31 < 32 ∧ 63 < 64 := by decide

end Sys2Proof.Tests
end

section
/-! SUPPORT. What power-on reset leaves in each field of the state (R24, R190), one lemma per field. -/

namespace Sys2Proof.Machine

@[simp] theorem State.powerOn_cfg (cfg : Config) : (State.powerOn cfg).cfg = cfg := rfl
@[simp] theorem State.powerOn_pending (cfg : Config) : (State.powerOn cfg).pending = [] := rfl
@[simp] theorem State.powerOn_resp (cfg : Config) : (State.powerOn cfg).resp = none := rfl

@[simp] theorem Cascade.powerOn_walshIndex (n : Nat) : (Cascade.powerOn n).walshIndex = 1 := rfl
@[simp] theorem Cascade.powerOn_keyed (n : Nat) : (Cascade.powerOn n).keyed = false := rfl

/-- Every register after power-on is the power-on register of its own number. -/
@[simp] theorem Cascade.reg_powerOn_regs {n : Nat} (g : RegIndex n) :
    reg (Cascade.powerOn n).regs g = Reg.powerOn g := by
  simp [reg, Cascade.powerOn]

/-- Every cross code after power-on is 0 (D6). -/
theorem Cascade.eq_zero_of_mem_powerOn_cross {n : Nat} {x : BitVec 2}
    (hx : x ∈ (Cascade.powerOn n).cross.toList) : x = 0 :=
  Vector.eq_of_mem_replicate (Vector.mem_toList_iff.mp hx)

/-- Every hop entry after power-on is the mark of an entry that is no index (R19). -/
theorem Cascade.eq_mark_of_mem_powerOn_hop {n : Nat} {h : BitVec 16}
    (hh : h ∈ (Cascade.powerOn n).hop.toList) : h = 0xFFFF :=
  Vector.eq_of_mem_replicate (Vector.mem_toList_iff.mp hh)

end Sys2Proof.Machine

namespace Sys2Proof

@[simp] theorem Config.default_n : Config.default.n = 9 := rfl

end Sys2Proof
end

section
/-! PROOF. The value of every specified piece of state after power-on (family 00_scope). -/

namespace Sys2Proof.Proofs

open Sys2Proof.Machine

/-- R24's values of one register: everything 0 but `leap`, and the links the default 4-cycle of the ring (D7). -/
theorem regPowerOn_values {n : Nat} (g : RegIndex n) :
    let r := Reg.powerOn g
    r.seed = 0 ∧ r.state = 0 ∧
    r.posUp = 0 ∧ r.posDown = 0 ∧ r.winA = 0 ∧ r.winB = 0 ∧ r.leap = 1 ∧
    r.upLink.val = 4 * (g / 4) + (g % 4 + 1) % 4 ∧ r.downLink.val = 4 * (g / 4) + (g % 4 + 3) % 4 :=
  ⟨rfl, rfl, rfl, rfl, rfl, rfl, rfl, rfl, rfl⟩

/-- Settles O41: the scalar fields by their own lemmas, the vectors entry by entry, each register as the power-on
register of its number. -/
theorem powerOnGivesTheListedValues : Obligations.PowerOnGivesTheListedValues := by
  refine ⟨rfl, Config.default_n, fun cfg => ⟨State.powerOn_cfg cfg, Cascade.powerOn_walshIndex _,
    Cascade.powerOn_keyed _, State.powerOn_pending cfg, State.powerOn_resp cfg, ?cross, ?hop, ?regs⟩⟩
  case cross => exact fun _ => Cascade.eq_zero_of_mem_powerOn_cross
  case hop => exact fun _ => Cascade.eq_mark_of_mem_powerOn_hop
  case regs =>
    intro (g : RegIndex cfg.n)
    have hreg : reg (State.powerOn cfg).cascade.regs g = Reg.powerOn g := Cascade.reg_powerOn_regs g
    simpa only [hreg] using regPowerOn_values g

end Sys2Proof.Proofs
end

section
/-! SUPPORT. A register file under a function of its registers: reading, the fields listed by register number, and how an
update acts under it; and RESET's rewind register by register. -/

namespace Sys2Proof.Machine

variable {n : Nat}

@[simp] theorem reg_map (rf : RegFile n) (e : Reg n → Reg n) (g : RegIndex n) :
    reg (rf.map e) g = e (reg rf g) := by
  simp [reg]

@[simp] theorem reg_ofFn (f : RegIndex n → Reg n) (g : RegIndex n) : reg (Vector.ofFn f) g = f g := by
  simp [reg]

/-- The list of one field of every register, as a function of the register number. -/
theorem toList_map_eq_ofFn {α : Type} (rf : RegFile n) (f : Reg n → α) :
    rf.toList.map f = List.ofFn fun g : RegIndex n => f (reg rf g) := by
  apply List.ext_getElem <;> simp [reg]

/-- A field holds no value twice when it is an injective function of the register number. -/
theorem nodup_toList_map_iff {α : Type} (rf : RegFile n) (f : Reg n → α) :
    (rf.toList.map f).Nodup ↔ Function.Injective fun g : RegIndex n => f (reg rf g) := by
  rw [toList_map_eq_ofFn, List.nodup_ofFn]

/-- Register files that agree in a field list it alike. -/
theorem toList_map_congr {α : Type} {a b : RegFile n} {f : Reg n → α} (h : ∀ g, f (reg a g) = f (reg b g)) :
    a.toList.map f = b.toList.map f := by
  simp only [toList_map_eq_ofFn, h]

/-- An update of one register, seen through `e`, is an update of the register seen through `e`. -/
theorem map_updateReg {e f f' : Reg n → Reg n} (h : ∀ r, e (f r) = f' (e r)) (rf : RegFile n) (g : RegIndex n) :
    (updateReg rf g f).map e = updateReg (rf.map e) g f' := by
  refine regFile_ext fun j => ?_
  simp only [reg_map, updateReg_get]
  split
  · exact h _
  · rfl

/-- RESET's rewind gives every register its seed as its state, and nothing else. -/
theorem rewindStates_get (rf : RegFile n) (g : RegIndex n) :
    reg (rewindStates rf) g = { reg rf g with state := (reg rf g).seed } := by
  have h := finRange_foldl_induction
    (fun m (t : RegFile n) => ∀ j : RegIndex n,
      reg t j = if j.val < m then { reg rf j with state := (reg rf j).seed } else reg rf j)
    (fun t j => setRegState t j (reg t j).seed) rf (fun j => by simp) ?step
  · simpa [rewindStates] using h g
  case step =>
    intro i t ht j
    rw [setRegState_get, ht i, ht j]
    by_cases hij : i = j
    · subst hij; simp
    · have : j.val < i.val + 1 ↔ j.val < i.val := by omega
      simp [hij, this]

end Sys2Proof.Machine
end

section
/-! SUPPORT. The data steps of ENC and DEC in the closed form of Safety (spec/43_block_commands.md R120, R121): the block
that leaves the last ring, and every register with the transients of its own window. -/

namespace Sys2Proof.Machine

open Sys2Proof.Safety

variable {n : Nat}

/-- A register after the window `w` passed through it (R81): only the transients are written. -/
def Reg.passed (r : Reg n) (w : U32) : Reg n :=
  { r with lastInput := w, lastOutput := w ^^^ lo32 r.state }

/-- The keystream of a ring depends on the states alone. -/
theorem keystream_congr {a b : RegFile n} (h : ∀ g, (reg a g).state = (reg b g).state) (i : Fin n) :
    keystream a i = keystream b i := by
  simp only [keystream, h]

/-- Registers that have been passed give the keystream they gave before. -/
theorem keystream_of_passed {a b : RegFile n} {p : RegIndex n → Prop} [DecidablePred p] {w : RegIndex n → U32}
    (h : ∀ g, reg a g = if p g then (reg b g).passed (w g) else reg b g) (i : Fin n) :
    keystream a i = keystream b i := by
  refine keystream_congr (fun g => ?_) i
  rw [h]
  split <;> rfl

/-- One ring's codec, on the registers its ring owns and on the others. -/
theorem ringCodecEnc_get (i : Fin n) (x : Block × RegFile n) (g : RegIndex n) :
    reg (ringCodecEnc i x).2 g =
      if ringOf g = i then (reg x.2 g).passed (window x.1 (localOf g)) else reg x.2 g :=
  ringCodecEnc_regs i x g

/-- The window register `g` encodes when block `b` enters ring 0 (R90, R120). -/
def encodeWindow (c : Cascade n) (b : Block) (g : RegIndex n) : U32 :=
  window (encodeInput c b (ringOf g) (ringOf g).isLt) (localOf g)

/-- The window register `g` decodes when block `b` enters the last ring (R92, R121). -/
def decodeWindow (c : Cascade n) (b : Block) (g : RegIndex n) : U32 :=
  window (decodeInput c b (n - 1 - ringOf g) (by omega)) (localOf g)

/-- The first `m` encode stages: the block that enters ring `m`, and the rings below `m` passed. -/
theorem encodeStages_spec (c : Cascade n) (b : Block) (m : Nat) (h : m < n) :
    (encodeStages c.cross m h (b, c.regs)).1 = encodeInput c b m h ∧
    ∀ g : RegIndex n, reg (encodeStages c.cross m h (b, c.regs)).2 g =
      if (ringOf g).val < m then (reg c.regs g).passed (encodeWindow c b g) else reg c.regs g := by
  induction m with
  | zero => exact ⟨rfl, fun g => by simp [encodeStages]⟩
  | succ m ih =>
    obtain ⟨hblock, hregs⟩ := ih (by omega)
    refine ⟨?_, fun g => ?_⟩
    · simp only [encodeStages, encodeInput, ringCodecEnc_block, hblock, keystream_of_passed hregs]
    · simp only [encodeStages, ringCodecEnc_get, hregs, hblock]
      obtain hlt | heq | hgt := Nat.lt_trichotomy (ringOf g).val m
      · have hne : ringOf g ≠ ⟨m, by omega⟩ := Fin.ne_of_val_ne (by simpa using hlt.ne)
        simp [hne, hlt, Nat.lt_succ_of_lt hlt]
      · obtain rfl : m = (ringOf g).val := heq.symm
        simp [encodeWindow]
      · have hne : ringOf g ≠ ⟨m, by omega⟩ := Fin.ne_of_val_ne (by simpa using hgt.ne')
        have : ¬ (ringOf g).val < m + 1 := by omega
        simp [hne, this, hgt.not_gt]

/-- ENC's output block is the block that enters the last ring under that ring's keystream. -/
theorem encodeBlock_block (cfg : Config) (c : Cascade cfg.n) (b : Block) :
    (encodeBlock cfg c b).1 =
      blockXor (encodeInput c (interleave cfg (walshMask cfg c.walshIndex b)) (lastRing cfg) (lastRing cfg).isLt)
        (keystream c.regs (lastRing cfg)) := by
  obtain ⟨hblock, hregs⟩ := encodeStages_spec c (interleave cfg (walshMask cfg c.walshIndex b)) (cfg.n - 1)
    (lastRing cfg).isLt
  simp only [encodeBlock, ringCodecEnc_block, hblock, keystream_of_passed hregs]
  rfl

/-- ENC's data steps pass every register's window through it and write nothing else. -/
theorem encodeBlock_get (cfg : Config) (c : Cascade cfg.n) (b : Block) (g : RegIndex cfg.n) :
    reg (encodeBlock cfg c b).2 g =
      (reg c.regs g).passed (encodeWindow c (interleave cfg (walshMask cfg c.walshIndex b)) g) := by
  obtain ⟨hblock, hregs⟩ := encodeStages_spec c (interleave cfg (walshMask cfg c.walshIndex b)) (cfg.n - 1)
    (lastRing cfg).isLt
  simp only [encodeBlock, ringCodecEnc_get, hblock, hregs]
  by_cases hlast : ringOf g = lastRing cfg
  · simp [hlast, encodeWindow, lastRing]
  · have hlt : (ringOf g).val < cfg.n - 1 := by
      have := Fin.val_ne_of_ne hlast
      simp only [lastRing] at this
      omega
    simp [hlast, hlt]

/-- The block that enters ring `m` in the decode direction, from the one that enters ring `m + 1`. -/
theorem decodeInput_descend (c : Cascade n) (b : Block) (m : Nat) (h : m + 1 < n) :
    decodeInput c b (n - 1 - m) (by omega) =
      crossPermute (c.cross[m]'(by omega))
        (blockXor (decodeInput c b (n - 1 - (m + 1)) (by omega)) (keystream c.regs ⟨m + 1, h⟩)) := by
  obtain ⟨k, hk⟩ : ∃ k, n - 1 - (m + 1) = k := ⟨_, rfl⟩
  have hm : n - 1 - m = k + 1 := by omega
  have hc : n - 1 - (k + 1) = m := by omega
  have hr : n - 1 - k = m + 1 := by omega
  simp only [hk, hm, decodeInput, hc, hr]

/-- Decode stages `m` down to 1, entered with the rings above `m` passed: the block that enters ring 0, and all rings
but ring 0 passed. -/
theorem decodeStages_spec (c : Cascade n) (b : Block) (m : Nat) (h : m < n) (x : Block × RegFile n)
    (hblock : x.1 = decodeInput c b (n - 1 - m) (by omega))
    (hregs : ∀ g : RegIndex n, reg x.2 g =
      if m < (ringOf g).val then (reg c.regs g).passed (decodeWindow c b g) else reg c.regs g) :
    (decodeStages c.cross m h x).1 = decodeInput c b (n - 1) (by omega) ∧
    ∀ g : RegIndex n, reg (decodeStages c.cross m h x).2 g =
      if 0 < (ringOf g).val then (reg c.regs g).passed (decodeWindow c b g) else reg c.regs g := by
  induction m generalizing x with
  | zero => exact ⟨hblock, hregs⟩
  | succ m ih =>
    refine ih (by omega) _ ?_ fun g => ?_
    · simp only [ringCodecDec_eq_ringCodecEnc, ringCodecEnc_block, hblock, keystream_of_passed hregs,
        decodeInput_descend c b m h]
    · simp only [ringCodecDec_eq_ringCodecEnc, ringCodecEnc_get, hregs, hblock]
      obtain hlt | heq | hgt := Nat.lt_trichotomy (ringOf g).val (m + 1)
      · have hne : ringOf g ≠ ⟨m + 1, h⟩ := Fin.ne_of_val_ne (by simpa using hlt.ne)
        have : ¬ m < (ringOf g).val := by omega
        simp [hne, this, hlt.not_gt]
      · have hring : ringOf g = ⟨m + 1, h⟩ := Fin.ext heq
        simp [hring, decodeWindow]
      · have hne : ringOf g ≠ ⟨m + 1, h⟩ := Fin.ne_of_val_ne (by simpa using hgt.ne')
        simp [hne, hgt, Nat.lt_of_succ_lt hgt]

/-- DEC's stages from the block that enters the last ring. -/
theorem decodeStages_full (cfg : Config) (c : Cascade cfg.n) (b : Block) :
    (decodeStages c.cross (cfg.n - 1) (lastRing cfg).isLt (b, c.regs)).1 =
      decodeInput c b (cfg.n - 1) (by have := cfg.two_le_n; omega) ∧
    ∀ g : RegIndex cfg.n, reg (decodeStages c.cross (cfg.n - 1) (lastRing cfg).isLt (b, c.regs)).2 g =
      if 0 < (ringOf g).val then (reg c.regs g).passed (decodeWindow c b g) else reg c.regs g := by
  refine decodeStages_spec c b (cfg.n - 1) (lastRing cfg).isLt (b, c.regs) ?_ fun g => ?_
  · simp [decodeInput]
  · have := (ringOf g).isLt
    rw [if_neg (by omega)]

/-- DEC's output block is the block that leaves ring 0, de-interleaved and masked. -/
theorem decodeBlock_block (cfg : Config) (c : Cascade cfg.n) (b : Block) :
    (decodeBlock cfg c b).1 =
      walshMask cfg c.walshIndex (deInterleave cfg
        (blockXor (decodeInput c b (cfg.n - 1) (by have := cfg.two_le_n; omega)) (keystream c.regs (firstRing cfg)))) := by
  obtain ⟨hblock, hregs⟩ := decodeStages_full cfg c b
  simp only [decodeBlock, ringCodecDec_eq_ringCodecEnc, ringCodecEnc_block, hblock, keystream_of_passed hregs]

/-- DEC's data steps pass every register's window through it and write nothing else. -/
theorem decodeBlock_get (cfg : Config) (c : Cascade cfg.n) (b : Block) (g : RegIndex cfg.n) :
    reg (decodeBlock cfg c b).2 g = (reg c.regs g).passed (decodeWindow c b g) := by
  obtain ⟨hblock, hregs⟩ := decodeStages_full cfg c b
  simp only [decodeBlock, ringCodecDec_eq_ringCodecEnc, ringCodecEnc_get, hblock, hregs]
  by_cases hfirst : ringOf g = firstRing cfg
  · simp [hfirst, decodeWindow, firstRing]
  · have hpos : 0 < (ringOf g).val := by
      have := Fin.val_ne_of_ne hfirst
      simp only [firstRing] at this
      omega
    simp [hfirst, hpos]

end Sys2Proof.Machine
end

section
/-! SUPPORT. Erasing a part of every register: the seed, the transients, or the whole working state (state and
transients). What the parts of ENC and DEC make of registers with a part erased. -/

namespace Sys2Proof.Machine

open Sys2Proof.Safety

variable {n : Nat}

/-- The register with its seed put to 0. -/
def Reg.eraseSeed (r : Reg n) : Reg n := { r with seed := 0 }

/-- The register with its transients put to 0. -/
def Reg.eraseTransients (r : Reg n) : Reg n := { r with lastInput := 0, lastOutput := 0 }

/-- The register with its state and transients put to 0: what is left is what no block command writes (R23). -/
def Reg.eraseWorking (r : Reg n) : Reg n := { r with state := 0, lastInput := 0, lastOutput := 0 }

theorem Reg.eraseWorking_passed (r : Reg n) (w : U32) : (r.passed w).eraseWorking = r.eraseWorking := rfl

/-- A cascade with every register replaced by what `e` makes of it. -/
def Cascade.mapRegs (c : Cascade n) (e : Reg n → Reg n) : Cascade n := { c with regs := c.regs.map e }

@[simp] theorem Cascade.mapRegs_regs (c : Cascade n) (e) : (c.mapRegs e).regs = c.regs.map e := rfl
@[simp] theorem Cascade.mapRegs_cross (c : Cascade n) (e) : (c.mapRegs e).cross = c.cross := rfl
@[simp] theorem Cascade.mapRegs_hop (c : Cascade n) (e) : (c.mapRegs e).hop = c.hop := rfl
@[simp] theorem Cascade.mapRegs_walshIndex (c : Cascade n) (e) : (c.mapRegs e).walshIndex = c.walshIndex := rfl

/-- A function that keeps the states keeps the keystream. -/
theorem keystream_mapRegs (c : Cascade n) {e : Reg n → Reg n} (he : ∀ r, (e r).state = r.state) (i : Fin n) :
    keystream (c.mapRegs e).regs i = keystream c.regs i :=
  keystream_congr (fun g => by simp [he]) i

/-- The statements' erasure of a state, register by register. -/
theorem eraseSeeds_eq (s : State) : eraseSeeds s = s.withRegs (s.cascade.regs.map Reg.eraseSeed) := rfl

/-- The statements' erasure of a state, register by register. -/
theorem eraseTransients_eq (s : State) :
    eraseTransients s = s.withRegs (s.cascade.regs.map Reg.eraseTransients) := rfl

@[simp] theorem eraseSeeds_resp (s : State) : (eraseSeeds s).resp = s.resp := rfl
@[simp] theorem eraseTransients_resp (s : State) : (eraseTransients s).resp = s.resp := rfl

/-! ### The data steps read of a register its state alone -/

theorem encodeInput_mapRegs (c : Cascade n) {e : Reg n → Reg n} (he : ∀ r, (e r).state = r.state) (b : Block)
    (m : Nat) (h : m < n) : encodeInput (c.mapRegs e) b m h = encodeInput c b m h := by
  induction m with
  | zero => rfl
  | succ m ih => simp only [encodeInput, ih, keystream_mapRegs c he, Cascade.mapRegs_cross]

theorem decodeInput_mapRegs (c : Cascade n) {e : Reg n → Reg n} (he : ∀ r, (e r).state = r.state) (b : Block)
    (k : Nat) (h : k < n) : decodeInput (c.mapRegs e) b k h = decodeInput c b k h := by
  induction k with
  | zero => rfl
  | succ k ih => simp only [decodeInput, ih, keystream_mapRegs c he, Cascade.mapRegs_cross]

/-- ENC's data steps on registers changed outside their states: the same block, the same windows. -/
theorem encodeBlock_mapRegs (cfg : Config) (c : Cascade cfg.n) (b : Block) {e : Reg cfg.n → Reg cfg.n}
    (he : ∀ r, (e r).state = r.state) :
    (encodeBlock cfg (c.mapRegs e) b).1 = (encodeBlock cfg c b).1 ∧
    ∀ g, reg (encodeBlock cfg (c.mapRegs e) b).2 g =
      (e (reg c.regs g)).passed (encodeWindow c (interleave cfg (walshMask cfg c.walshIndex b)) g) := by
  constructor
  · simp only [encodeBlock_block, encodeInput_mapRegs c he, keystream_mapRegs c he, Cascade.mapRegs_walshIndex]
  · intro g
    simp only [encodeBlock_get, encodeWindow, encodeInput_mapRegs c he, Cascade.mapRegs_regs,
      Cascade.mapRegs_walshIndex, reg_map]

/-- DEC's data steps on registers changed outside their states: the same block, the same windows. -/
theorem decodeBlock_mapRegs (cfg : Config) (c : Cascade cfg.n) (b : Block) {e : Reg cfg.n → Reg cfg.n}
    (he : ∀ r, (e r).state = r.state) :
    (decodeBlock cfg (c.mapRegs e) b).1 = (decodeBlock cfg c b).1 ∧
    ∀ g, reg (decodeBlock cfg (c.mapRegs e) b).2 g = (e (reg c.regs g)).passed (decodeWindow c b g) := by
  constructor
  · simp only [decodeBlock_block, decodeInput_mapRegs c he, keystream_mapRegs c he, Cascade.mapRegs_walshIndex]
  · intro g
    simp only [decodeBlock_get, decodeWindow, decodeInput_mapRegs c he, Cascade.mapRegs_regs, reg_map]

/-- ENC overwrites every transient, so those it finds do not matter (R16). -/
theorem encodeBlock_eraseTransients (cfg : Config) (c : Cascade cfg.n) (b : Block) :
    encodeBlock cfg (c.mapRegs Reg.eraseTransients) b = encodeBlock cfg c b := by
  obtain ⟨hblock, hregs⟩ := encodeBlock_mapRegs cfg c b (e := Reg.eraseTransients) fun _ => rfl
  exact Prod.ext hblock (regFile_ext fun g => by rw [hregs, encodeBlock_get]; rfl)

/-- DEC overwrites every transient, so those it finds do not matter (R16). -/
theorem decodeBlock_eraseTransients (cfg : Config) (c : Cascade cfg.n) (b : Block) :
    decodeBlock cfg (c.mapRegs Reg.eraseTransients) b = decodeBlock cfg c b := by
  obtain ⟨hblock, hregs⟩ := decodeBlock_mapRegs cfg c b (e := Reg.eraseTransients) fun _ => rfl
  exact Prod.ext hblock (regFile_ext fun g => by rw [hregs, decodeBlock_get]; rfl)

theorem encodeBlock_eraseSeed (cfg : Config) (c : Cascade cfg.n) (b : Block) :
    encodeBlock cfg (c.mapRegs Reg.eraseSeed) b =
      ((encodeBlock cfg c b).1, (encodeBlock cfg c b).2.map Reg.eraseSeed) := by
  obtain ⟨hblock, hregs⟩ := encodeBlock_mapRegs cfg c b (e := Reg.eraseSeed) fun _ => rfl
  exact Prod.ext hblock (regFile_ext fun g => by rw [hregs, reg_map, encodeBlock_get]; rfl)

theorem decodeBlock_eraseSeed (cfg : Config) (c : Cascade cfg.n) (b : Block) :
    decodeBlock cfg (c.mapRegs Reg.eraseSeed) b =
      ((decodeBlock cfg c b).1, (decodeBlock cfg c b).2.map Reg.eraseSeed) := by
  obtain ⟨hblock, hregs⟩ := decodeBlock_mapRegs cfg c b (e := Reg.eraseSeed) fun _ => rfl
  exact Prod.ext hblock (regFile_ext fun g => by rw [hregs, reg_map, decodeBlock_get]; rfl)

/-! ### The clock pass and the hop pass read no seed -/

theorem clockWith_eraseSeed (rf : RegFile n) (g : RegIndex n) (v : U32) :
    clockWith (rf.map Reg.eraseSeed) g v = (clockWith rf g v).map Reg.eraseSeed := by
  refine regFile_ext fun j => ?_
  simp only [clockWith_get, reg_map]
  split <;> rfl

theorem clockAllForward_eraseSeed (rf : RegFile n) (i : Fin n) :
    clockAllForward (rf.map Reg.eraseSeed) i = (clockAllForward rf i).map Reg.eraseSeed := by
  have hclock : ∀ (rf : RegFile n) g,
      clockForward (rf.map Reg.eraseSeed) g = (clockForward rf g).map Reg.eraseSeed := fun rf g => by
    rw [clockForward, reg_map]; exact clockWith_eraseSeed rf g _
  simp only [clockAllForward, hclock]

theorem clockAllBackward_eraseSeed (rf : RegFile n) (i : Fin n) :
    clockAllBackward (rf.map Reg.eraseSeed) i = (clockAllBackward rf i).map Reg.eraseSeed := by
  have hclock : ∀ (rf : RegFile n) g,
      clockBackward (rf.map Reg.eraseSeed) g = (clockBackward rf g).map Reg.eraseSeed := fun rf g => by
    rw [clockBackward, reg_map]; exact clockWith_eraseSeed rf g _
  simp only [clockAllBackward, hclock]

theorem hopStep_eraseSeed (hop : Vector (BitVec 16) (4 * n)) (rf : RegFile n) (i : RegIndex n) :
    hopStep hop (rf.map Reg.eraseSeed) i = (hopStep hop rf i).map Reg.eraseSeed := by
  refine regFile_ext fun g => ?_
  simp only [hopStep_get, reg_map]
  split <;> rfl

theorem hopSeeds_eraseSeed (hop : Vector (BitVec 16) (4 * n)) (rf : RegFile n) :
    hopSeeds hop (rf.map Reg.eraseSeed) = (hopSeeds hop rf).map Reg.eraseSeed :=
  List.foldl_hom (fun rf : RegFile n => rf.map Reg.eraseSeed) (hopStep_eraseSeed hop)

theorem advanceForward_eraseSeed (hop : Vector (BitVec 16) (4 * n)) (rf : RegFile n) :
    advanceForward hop (rf.map Reg.eraseSeed) = (advanceForward hop rf).map Reg.eraseSeed := by
  rw [advanceForward, List.foldl_hom (fun rf : RegFile n => rf.map Reg.eraseSeed) clockAllForward_eraseSeed,
    hopSeeds_eraseSeed, advanceForward]

theorem advanceBackward_eraseSeed (hop : Vector (BitVec 16) (4 * n)) (rf : RegFile n) :
    advanceBackward hop (rf.map Reg.eraseSeed) = (advanceBackward hop rf).map Reg.eraseSeed := by
  rw [advanceBackward, List.foldl_hom (fun rf : RegFile n => rf.map Reg.eraseSeed) clockAllBackward_eraseSeed,
    hopSeeds_eraseSeed, advanceBackward]

/-! ### The clock pass and the hop pass write the working state alone -/

/-- What no iteration of a fold changes, the fold does not change. -/
theorem foldl_keeps {σ τ ι : Type} {F : σ → τ} {f : σ → ι → σ} (h : ∀ x i, F (f x i) = F x) (l : List ι)
    (x : σ) : F (l.foldl f x) = F x := by
  induction l generalizing x with
  | nil => rfl
  | cons i l ih => rw [List.foldl_cons, ih, h]

theorem clockWith_eraseWorking (rf : RegFile n) (g : RegIndex n) (v : U32) :
    (clockWith rf g v).map Reg.eraseWorking = rf.map Reg.eraseWorking := by
  refine regFile_ext fun j => ?_
  simp only [clockWith_get, reg_map]
  split <;> rfl

theorem clockAllForward_eraseWorking (rf : RegFile n) (i : Fin n) :
    (clockAllForward rf i).map Reg.eraseWorking = rf.map Reg.eraseWorking := by
  simp only [clockAllForward, clockForward, clockWith_eraseWorking]

theorem clockAllBackward_eraseWorking (rf : RegFile n) (i : Fin n) :
    (clockAllBackward rf i).map Reg.eraseWorking = rf.map Reg.eraseWorking := by
  simp only [clockAllBackward, clockBackward, clockWith_eraseWorking]

theorem hopStep_eraseWorking (hop : Vector (BitVec 16) (4 * n)) (rf : RegFile n) (i : RegIndex n) :
    (hopStep hop rf i).map Reg.eraseWorking = rf.map Reg.eraseWorking := by
  refine regFile_ext fun g => ?_
  simp only [hopStep_get, reg_map]
  split <;> rfl

theorem hopSeeds_eraseWorking (hop : Vector (BitVec 16) (4 * n)) (rf : RegFile n) :
    (hopSeeds hop rf).map Reg.eraseWorking = rf.map Reg.eraseWorking :=
  foldl_keeps (F := fun rf : RegFile n => rf.map Reg.eraseWorking) (hopStep_eraseWorking hop) _ _

theorem reg_advanceForward_eraseWorking (hop : Vector (BitVec 16) (4 * n)) (rf : RegFile n) (g : RegIndex n) :
    (reg (advanceForward hop rf) g).eraseWorking = (reg rf g).eraseWorking := by
  have h : (advanceForward hop rf).map Reg.eraseWorking = rf.map Reg.eraseWorking :=
    (hopSeeds_eraseWorking hop _).trans
      (foldl_keeps (F := fun rf : RegFile n => rf.map Reg.eraseWorking) clockAllForward_eraseWorking _ _)
  simpa using congrArg (reg · g) h

theorem reg_advanceBackward_eraseWorking (hop : Vector (BitVec 16) (4 * n)) (rf : RegFile n) (g : RegIndex n) :
    (reg (advanceBackward hop rf) g).eraseWorking = (reg rf g).eraseWorking := by
  have h : (advanceBackward hop rf).map Reg.eraseWorking = rf.map Reg.eraseWorking :=
    (hopSeeds_eraseWorking hop _).trans
      (foldl_keeps (F := fun rf : RegFile n => rf.map Reg.eraseWorking) clockAllBackward_eraseWorking _ _)
  simpa using congrArg (reg · g) h

/-! ### The whole of a keyed block command -/

/-- The output block and the registers of a keyed ENC (R120). -/
def encoded (cfg : Config) (c : Cascade cfg.n) (b : Block) : Block × RegFile cfg.n :=
  ((encodeBlock cfg c b).1, advanceForward c.hop (encodeBlock cfg c b).2)

/-- The output block and the registers of a keyed DEC (R121). -/
def decoded (cfg : Config) (c : Cascade cfg.n) (b : Block) : Block × RegFile cfg.n :=
  ((decodeBlock cfg c b).1, advanceBackward c.hop (decodeBlock cfg c b).2)

theorem encoded_eraseTransients (cfg : Config) (c : Cascade cfg.n) (b : Block) :
    encoded cfg (c.mapRegs Reg.eraseTransients) b = encoded cfg c b := by
  simp only [encoded, encodeBlock_eraseTransients, Cascade.mapRegs_hop]

theorem decoded_eraseTransients (cfg : Config) (c : Cascade cfg.n) (b : Block) :
    decoded cfg (c.mapRegs Reg.eraseTransients) b = decoded cfg c b := by
  simp only [decoded, decodeBlock_eraseTransients, Cascade.mapRegs_hop]

theorem encoded_eraseSeed (cfg : Config) (c : Cascade cfg.n) (b : Block) :
    encoded cfg (c.mapRegs Reg.eraseSeed) b = ((encoded cfg c b).1, (encoded cfg c b).2.map Reg.eraseSeed) := by
  simp only [encoded, encodeBlock_eraseSeed, advanceForward_eraseSeed, Cascade.mapRegs_hop]

theorem decoded_eraseSeed (cfg : Config) (c : Cascade cfg.n) (b : Block) :
    decoded cfg (c.mapRegs Reg.eraseSeed) b = ((decoded cfg c b).1, (decoded cfg c b).2.map Reg.eraseSeed) := by
  simp only [decoded, decodeBlock_eraseSeed, advanceBackward_eraseSeed, Cascade.mapRegs_hop]

theorem reg_encoded_eraseWorking (cfg : Config) (c : Cascade cfg.n) (b : Block) (g : RegIndex cfg.n) :
    (reg (encoded cfg c b).2 g).eraseWorking = (reg c.regs g).eraseWorking := by
  rw [encoded, reg_advanceForward_eraseWorking, encodeBlock_get, Reg.eraseWorking_passed]

theorem reg_decoded_eraseWorking (cfg : Config) (c : Cascade cfg.n) (b : Block) (g : RegIndex cfg.n) :
    (reg (decoded cfg c b).2 g).eraseWorking = (reg c.regs g).eraseWorking := by
  rw [decoded, reg_advanceBackward_eraseWorking, decodeBlock_get, Reg.eraseWorking_passed]

end Sys2Proof.Machine
end

section
/-! SUPPORT. What one command can do, said once: every command but an accepted REKEY rewrites registers only, within
the access matrix (spec/10_state.md R23), and answers with a response of R64; an accepted REKEY commits a drawn key. -/

namespace Sys2Proof.Machine

open Sys2Proof.Safety

variable {n : Nat}

/-- The status is one of the four codes, and an error carries no data (R64). -/
def Response.Conforms (r : Response) : Prop := r.status.toNat ≤ 3 ∧ (r.status ≠ 0 → r.dout0 = 0 ∧ r.dout1 = 0)

theorem Response.conforms_ok (d e : U64) : Response.Conforms ⟨0, d, e⟩ := ⟨by simp, fun h => absurd rfl h⟩

theorem Response.conforms_error (c : Condition) : Response.Conforms ⟨c.code, 0, 0⟩ :=
  ⟨by cases c <;> decide, fun _ => ⟨rfl, rfl⟩⟩

/-- `new` differs from `old` only in what the access matrix lets command `i`, not a REKEY, write of a register
(R23). -/
structure KeptBy (i : Instr) (old new : Reg n) : Prop where
  upLink : new.upLink = old.upLink
  downLink : new.downLink = old.downLink
  seed : (∀ j, i ≠ .setSeed j) → new.seed = old.seed
  state : (∀ j, i ≠ .setState j) → i ∉ [Instr.reset, .enc, .dec] → new.state = old.state
  transients : i ∉ [Instr.enc, .dec] → new.lastInput = old.lastInput ∧ new.lastOutput = old.lastOutput
  posUp : (∀ j, i ≠ .setPosUp j) → new.posUp = old.posUp
  posDown : (∀ j, i ≠ .setPosDown j) → new.posDown = old.posDown
  winA : (∀ j, i ≠ .setWinA j) → new.winA = old.winA
  winB : (∀ j, i ≠ .setWinB j) → new.winB = old.winB
  leap : (∀ j, i ≠ .setLeap j) → new.leap = old.leap

theorem KeptBy.refl (i : Instr) (r : Reg n) : KeptBy i r r := by
  constructor <;> simp

/-- A block command may write the whole working state. -/
theorem KeptBy.of_eraseWorking {i : Instr} (hi : i ∈ [Instr.enc, .dec]) {old new : Reg n}
    (h : new.eraseWorking = old.eraseWorking) : KeptBy i old new := by
  simp only [Reg.eraseWorking, Reg.mk.injEq] at h
  obtain ⟨hseed, -, hposUp, hposDown, hwinA, hwinB, hleap, hup, hdown, -, -⟩ := h
  exact ⟨hup, hdown, fun _ => hseed, fun _ hn => absurd (List.mem_cons_of_mem _ hi) hn, fun hn => absurd hi hn,
    fun _ => hposUp, fun _ => hposDown, fun _ => hwinA, fun _ => hwinB, fun _ => hleap⟩

/-- From `s` to `t` command `i` has rewritten registers within the access matrix and answered, and nothing else. -/
def WritesRegs (i : Instr) (s t : State) : Prop :=
  ∃ (rf : RegFile s.cfg.n) (r : Response),
    t = { s with cascade := { s.cascade with regs := rf }, resp := some r } ∧ r.Conforms ∧
    ∀ g : RegIndex s.cfg.n, KeptBy i (reg s.cascade.regs g) (reg rf g)

theorem writesRegs_raise (i : Instr) (s : State) (c : Condition) : WritesRegs i s (s.raise c) :=
  ⟨s.cascade.regs, ⟨c.code, 0, 0⟩, rfl, Response.conforms_error c, fun _ => KeptBy.refl i _⟩

theorem writesRegs_answer (i : Instr) (s : State) (d : U64) : WritesRegs i s (s.answer d) :=
  ⟨s.cascade.regs, ⟨0, d, 0⟩, rfl, Response.conforms_ok d 0, fun _ => KeptBy.refl i _⟩

theorem writesRegs_readField (i : Instr) (s : State) (idx : Nat) (f : Reg s.cfg.n → U64) :
    WritesRegs i s (readField s idx f) := by
  obtain ⟨d, hd⟩ := readField_answers s idx f
  exact hd ▸ writesRegs_answer i s d

theorem writesRegs_writeField {i : Instr} (s : State) (idx : Nat) {f : Reg s.cfg.n → Reg s.cfg.n}
    (h : ∀ r, KeptBy i r (f r)) : WritesRegs i s (writeField s idx f) := by
  obtain ⟨rf, hrf, hregs⟩ := writeField_spec s idx f
  refine ⟨rf, ⟨0, 0, 0⟩, hrf, Response.conforms_ok 0 0, fun g => ?_⟩
  rw [hregs]
  split
  · exact h _
  · exact KeptBy.refl i _

/-- The state a keyed block command leaves: its registers written and its block answered. -/
def State.answerRegs (s : State) (out : Block × RegFile s.cfg.n) : State := (s.withRegs out.2).answerBlock out.1

theorem exec_enc_keyed {s : State} (h : s.cascade.keyed = true) :
    exec .enc s = .next (s.answerRegs (encoded s.cfg s.cascade (blockOperand s))) := by
  simp [exec, execEnc, State.answerRegs, encoded, h]

theorem exec_dec_keyed {s : State} (h : s.cascade.keyed = true) :
    exec .dec s = .next (s.answerRegs (decoded s.cfg s.cascade (blockOperand s))) := by
  simp [exec, execDec, State.answerRegs, decoded, h]

/-- A block command on an unkeyed machine is refused before it writes anything (R173). -/
theorem exec_block_unkeyed {s : State} {i : Instr} (hi : i = .enc ∨ i = .dec) (h : s.cascade.keyed = false) :
    exec i s = .next (s.raise .unkeyedUse) := by
  obtain rfl | rfl := hi
  · simp [exec, execEnc, h]
  · simp [exec, execDec, h]

theorem exec_rekey_rejected {s : State} (h : openKeySchedule s.cfg s.ports.pwd = none) :
    exec .rekey s = .next (s.raise .keyRejected) := by
  simp [exec, execRekey, h]

/-- The state an accepted REKEY leaves, its port being `p` (R136). -/
def State.committed (s : State) (p : KsPort) : State :=
  { s with cascade := commitKey (drawKey s.cfg.n p).1 s.cascade }.answer 0

theorem exec_rekey_accepted {s : State} {p : KsPort} (h : openKeySchedule s.cfg s.ports.pwd = some p) :
    exec .rekey s = .next (s.committed p) := by
  simp [exec, execRekey, State.committed, h]

theorem writesRegs_answerRegs {i : Instr} (hi : i ∈ [Instr.enc, .dec]) (s : State) (out : Block × RegFile s.cfg.n)
    (h : ∀ g, (reg out.2 g).eraseWorking = (reg s.cascade.regs g).eraseWorking) :
    WritesRegs i s (s.answerRegs out) :=
  ⟨out.2, ⟨0, out.1.word0, out.1.word1⟩, rfl, Response.conforms_ok _ _, fun g => KeptBy.of_eraseWorking hi (h g)⟩

theorem writesRegs_enc (s : State) : ∃ t, exec .enc s = .next t ∧ WritesRegs .enc s t := by
  cases h : s.cascade.keyed with
  | false => exact ⟨_, exec_block_unkeyed (.inl rfl) h, writesRegs_raise _ s _⟩
  | true => exact ⟨_, exec_enc_keyed h, writesRegs_answerRegs (by simp) s _ (reg_encoded_eraseWorking _ _ _)⟩

theorem writesRegs_dec (s : State) : ∃ t, exec .dec s = .next t ∧ WritesRegs .dec s t := by
  cases h : s.cascade.keyed with
  | false => exact ⟨_, exec_block_unkeyed (.inr rfl) h, writesRegs_raise _ s _⟩
  | true => exact ⟨_, exec_dec_keyed h, writesRegs_answerRegs (by simp) s _ (reg_decoded_eraseWorking _ _ _)⟩

theorem writesRegs_reset (s : State) : WritesRegs .reset s ((s.withRegs (rewindStates s.cascade.regs)).answer 0) := by
  refine ⟨rewindStates s.cascade.regs, ⟨0, 0, 0⟩, rfl, Response.conforms_ok 0 0, fun g => ?_⟩
  rw [rewindStates_get]
  constructor <;> simp

/-- Every command but REKEY completes, having rewritten registers within the access matrix. -/
theorem exec_writesRegs (i : Instr) (s : State) (hi : i ≠ .rekey) : ∃ t, exec i s = .next t ∧ WritesRegs i s t := by
  cases i with
  | rekey => exact absurd rfl hi
  | reset => exact ⟨_, rfl, writesRegs_reset s⟩
  | enc => exact writesRegs_enc s
  | dec => exact writesRegs_dec s
  | numSeeds => exact ⟨_, rfl, writesRegs_answer _ s _⟩
  | getSeed idx => exact ⟨_, rfl, writesRegs_readField _ s idx _⟩
  | getState idx => exact ⟨_, rfl, writesRegs_readField _ s idx _⟩
  | getPosUp idx => exact ⟨_, rfl, writesRegs_readField _ s idx _⟩
  | getPosDown idx => exact ⟨_, rfl, writesRegs_readField _ s idx _⟩
  | getWinA idx => exact ⟨_, rfl, writesRegs_readField _ s idx _⟩
  | getWinB idx => exact ⟨_, rfl, writesRegs_readField _ s idx _⟩
  | getLeap idx => exact ⟨_, rfl, writesRegs_readField _ s idx _⟩
  | setSeed idx => exact ⟨_, rfl, writesRegs_writeField s idx fun r => by constructor <;> simp⟩
  | setState idx => exact ⟨_, rfl, writesRegs_writeField s idx fun r => by constructor <;> simp⟩
  | setPosUp idx => exact ⟨_, rfl, writesRegs_writeField s idx fun r => by constructor <;> simp⟩
  | setPosDown idx => exact ⟨_, rfl, writesRegs_writeField s idx fun r => by constructor <;> simp⟩
  | setWinA idx => exact ⟨_, rfl, writesRegs_writeField s idx fun r => by constructor <;> simp⟩
  | setWinB idx => exact ⟨_, rfl, writesRegs_writeField s idx fun r => by constructor <;> simp⟩
  | setLeap idx => exact ⟨_, rfl, writesRegs_writeField s idx fun r => by constructor <;> simp⟩

/-- What a completed command has done: committed a key, as an accepted REKEY, or else rewritten registers within the
access matrix. -/
theorem exec_cases {i : Instr} {s t : State} (h : exec i s = .next t) :
    (i = .rekey ∧ ∃ p, openKeySchedule s.cfg s.ports.pwd = some p ∧ t = s.committed p) ∨
    (¬ (i = .rekey ∧ Accepts s.cfg s.ports.pwd) ∧ WritesRegs i s t) := by
  by_cases hi : i = .rekey
  · subst hi
    cases hopen : openKeySchedule s.cfg s.ports.pwd with
    | none =>
      obtain rfl : s.raise .keyRejected = t := Host.Outcome.next.inj ((exec_rekey_rejected hopen).symm.trans h)
      refine .inr ⟨fun ⟨_, hacc⟩ => ?_, writesRegs_raise _ s _⟩
      simpa [hopen] using (openKeySchedule_isSome s.cfg s.ports.pwd).mpr hacc
    | some p => exact .inl ⟨rfl, p, rfl, (Host.Outcome.next.inj ((exec_rekey_accepted hopen).symm.trans h)).symm⟩
  · obtain ⟨u, hu, hw⟩ := exec_writesRegs i s hi
    obtain rfl : u = t := Host.Outcome.next.inj (hu.symm.trans h)
    exact .inr ⟨fun hr => hi hr.1, hw⟩

/-- Every command completes. -/
theorem exec_completes (i : Instr) (s : State) : ∃ t, exec i s = .next t := by
  by_cases hi : i = .rekey
  · subst hi
    exact ⟨_, rfl⟩
  · exact (exec_writesRegs i s hi).imp fun _ h => h.1

/-- What a step has done: waited, refused an illegal word, or executed the decoded command. -/
theorem step_cases {s t : State} (h : step s = .next t) :
    (s.pending = [] ∧ t = s) ∨
    ∃ c rest, s.pending = c :: rest ∧
      ((∃ e, decode c.cmd = .error e ∧ t = (s.accept c rest).raise .illegalCommand) ∨
        ∃ i, decode c.cmd = .ok i ∧ exec i (s.accept c rest) = .next t) := by
  unfold step at h
  cases hp : s.pending with
  | nil =>
    rw [hp] at h
    exact .inl ⟨rfl, (Host.Outcome.next.inj h).symm⟩
  | cons c rest =>
    simp only [hp] at h
    refine .inr ⟨c, rest, rfl, ?_⟩
    cases hd : decode c.cmd with
    | error e =>
      rw [hd] at h
      exact .inl ⟨e, rfl, (Host.Outcome.next.inj h).symm⟩
    | ok i =>
      rw [hd] at h
      exact .inr ⟨i, rfl, h⟩

theorem WritesRegs.cfg_eq {i : Instr} {s t : State} (h : WritesRegs i s t) : t.cfg = s.cfg := by
  obtain ⟨rf, r, rfl, -, -⟩ := h
  rfl

theorem WritesRegs.keyed_eq {i : Instr} {s t : State} (h : WritesRegs i s t) : t.cascade.keyed = s.cascade.keyed := by
  obtain ⟨rf, r, rfl, -, -⟩ := h
  rfl

end Sys2Proof.Machine
end

section
/-! PROOF. The constants, the access matrix and the keyed bit (family 10_state). -/

namespace Sys2Proof.Proofs

open Sys2Proof.Machine Sys2Proof.Safety

/-- Settles O42: neither way a command can end writes the constants. -/
theorem configurationIsNeverWritten : Obligations.ConfigurationIsNeverWritten := by
  intro s t h
  obtain ⟨-, rfl⟩ | ⟨c, rest, -, ⟨e, -, rfl⟩ | ⟨i, -, hexec⟩⟩ := step_cases h
  · rfl
  · rfl
  · obtain ⟨-, p, -, rfl⟩ | ⟨-, hw⟩ := exec_cases hexec
    · rfl
    · exact hw.cfg_eq

/-- Settles O43: the matrix is what `exec_writesRegs` says of every command but REKEY. -/
theorem onlyTheNamedCommandsWriteEachField : Obligations.OnlyTheNamedCommandsWriteEachField := by
  intro i s hi
  obtain ⟨t, hexec, rf, r, rfl, -, hkept⟩ := exec_writesRegs i s hi
  refine ⟨rf, r, hexec, fun g => ?_⟩
  obtain ⟨hup, hdown, hseed, hstate, htrans, hposUp, hposDown, hwinA, hwinB, hleap⟩ := hkept g
  exact ⟨hup, hdown, hseed, hstate, htrans, hposUp, hposDown, hwinA, hwinB, hleap⟩

/-- Settles O44: an accepted REKEY sets the bit, and whatever else a step does keeps it. -/
theorem keyedIsSetOnlyByAnAcceptedRekey : Obligations.KeyedIsSetOnlyByAnAcceptedRekey := by
  intro s t h
  obtain ⟨hnil, rfl⟩ | ⟨c, rest, hcons, ⟨e, herr, rfl⟩ | ⟨i, hok, hexec⟩⟩ := step_cases h
  · simp [hnil]
  · simp [hcons, herr]
  · obtain ⟨rfl, p, hopen, rfl⟩ | ⟨hnot, hw⟩ := exec_cases hexec
    · have hacc : Accepts s.cfg c.pwd := (openKeySchedule_isSome s.cfg c.pwd).mp (Option.isSome_of_eq_some hopen)
      exact ⟨fun _ => .inr ⟨c, rest, hcons, hok, hacc⟩, fun _ => rfl⟩
    · rw [hw.keyed_eq]
      refine ⟨.inl, Or.rec id ?_⟩
      rintro ⟨c', rest', hcons', hok', hacc⟩
      obtain ⟨rfl, rfl⟩ := List.cons.inj (hcons.symm.trans hcons')
      exact absurd ⟨Except.ok.inj (hok.symm.trans hok'), hacc⟩ hnot

end Sys2Proof.Proofs
end

section
/-! SUPPORT. The links after power-on (spec/10_state.md R24), and what an accepted REKEY leaves in the tables the
invariant speaks of (spec/44_key_schedule.md R134, R137). -/

namespace Sys2Proof.Machine

variable {n : Nat}

/-- A rotation by `k` inside each ring of four moves no two registers to the same place (D7). -/
theorem eq_of_rotated_eq {a b k : Nat} (h : 4 * (a / 4) + (a % 4 + k) % 4 = 4 * (b / 4) + (b % 4 + k) % 4) : a = b := by
  have hring : a / 4 = b / 4 := by omega
  omega

theorem Reg.powerOn_upLink_injective (n : Nat) : Function.Injective fun g : RegIndex n => (Reg.powerOn g).upLink :=
  fun _ _ h => Fin.ext (eq_of_rotated_eq (congrArg Fin.val h))

theorem Reg.powerOn_downLink_injective (n : Nat) : Function.Injective fun g : RegIndex n => (Reg.powerOn g).downLink :=
  fun _ _ h => Fin.ext (eq_of_rotated_eq (congrArg Fin.val h))

theorem randomPermutation_perm (k : Nat) (p : KsPort) :
    (randomPermutation k p).1.toList.Perm (List.finRange k) := by
  simpa [randomPermutation, Vector.toList_mk] using permuteLoop_perm (k - 2) (List.finRange k) p

theorem randomPermutation_nodup (k : Nat) (p : KsPort) : (randomPermutation k p).1.toList.Nodup :=
  (randomPermutation_perm k p).nodup_iff.mpr (List.nodup_finRange k)

@[simp] theorem reg_commitKey (k : KeyMaterial n) (c : Cascade n) (g : RegIndex n) :
    reg (commitKey k c).regs g = commitReg k c.regs g :=
  reg_ofFn _ g

theorem commitKey_upLinks_nodup {k : KeyMaterial n} (hk : k.upLink.toList.Nodup) (c : Cascade n) :
    ((commitKey k c).regs.toList.map (·.upLink)).Nodup := by
  have hlinks : (commitKey k c).regs.toList.map (·.upLink) = k.upLink.toList := by
    rw [toList_map_eq_ofFn]
    apply List.ext_getElem <;> simp [commitReg]
  rwa [hlinks]

theorem commitKey_downLinks_nodup {k : KeyMaterial n} (hk : k.downLink.toList.Nodup) (c : Cascade n) :
    ((commitKey k c).regs.toList.map (·.downLink)).Nodup := by
  have hlinks : (commitKey k c).regs.toList.map (·.downLink) = k.downLink.toList := by
    rw [toList_map_eq_ofFn]
    apply List.ext_getElem <;> simp [commitReg]
  rwa [hlinks]

theorem commitKey_walshIndex_ne_zero (k : KeyMaterial n) (c : Cascade n) : (commitKey k c).walshIndex ≠ 0 := by
  unfold commitKey
  dsimp only
  split
  · decide
  · assumption

/-- The committed `hop` entries, as the numbers of the drawn permutation: 16 bits hold every register number. -/
theorem commitKey_hop_toNat (hn : n ≤ 16383) (k : KeyMaterial n) (c : Cascade n) :
    (commitKey k c).hop.toList.map (·.toNat) = k.hop.toList.map Fin.val := by
  simp only [commitKey, Vector.toList_map, List.map_map]
  refine List.map_congr_left fun j _ => ?_
  have := j.isLt
  simp only [Function.comp_apply, BitVec.toNat_ofNat]
  omega

theorem commitKey_hop_nodup (hn : n ≤ 16383) {k : KeyMaterial n} (hk : k.hop.toList.Nodup) (c : Cascade n) :
    (commitKey k c).hop.toList.Nodup := by
  refine List.Nodup.of_map (fun h : BitVec 16 => h.toNat) ?_
  rw [commitKey_hop_toNat hn]
  exact hk.map Fin.val_injective

theorem commitKey_hop_lt (hn : n ≤ 16383) (k : KeyMaterial n) (c : Cascade n) {h : BitVec 16}
    (hh : h ∈ (commitKey k c).hop.toList) : h.toNat < 4 * n := by
  have hmem : h.toNat ∈ k.hop.toList.map Fin.val := by
    rw [← commitKey_hop_toNat hn k c]
    exact List.mem_map_of_mem hh
  obtain ⟨j, -, hj⟩ := List.mem_map.mp hmem
  exact hj ▸ j.isLt

end Sys2Proof.Machine
end

section
/-! PROOF. The invariant of every reachable state: it holds after power-on and every step keeps it (family
10_state). -/

namespace Sys2Proof.Proofs

open Sys2Proof.Machine Sys2Proof.Safety

theorem inv_powerOn (cfg : Config) : Inv (State.powerOn cfg) where
  walshIndex_pos := by simp [State.powerOn]
  upLinks_nodup := by
    rw [nodup_toList_map_iff]
    simpa [State.powerOn] using Reg.powerOn_upLink_injective cfg.n
  downLinks_nodup := by
    rw [nodup_toList_map_iff]
    simpa [State.powerOn] using Reg.powerOn_downLink_injective cfg.n
  keyed_hop h := nomatch h
  unkeyed_control _ :=
    ⟨fun _ => Cascade.eq_zero_of_mem_powerOn_cross, fun _ => Cascade.eq_mark_of_mem_powerOn_hop, rfl,
      fun (g : RegIndex cfg.n) => by
        have hreg : reg (State.powerOn cfg).cascade.regs g = Reg.powerOn g := Cascade.reg_powerOn_regs g
        simp only [hreg]
        exact ⟨rfl, rfl⟩⟩
  response r h := nomatch h

/-- Settles O40: after power-on by the fields' own lemmas, and the state at reset is one after power-on. -/
theorem powerOnMeetsTheInvariant : Obligations.PowerOnMeetsTheInvariant :=
  ⟨inv_powerOn, inv_powerOn Config.default⟩

/-- The invariant reads neither the sampled ports nor the command stream. -/
theorem inv_accept {s : State} (h : Inv s) (c : Command) (rest : List Command) : Inv (s.accept c rest) where
  walshIndex_pos := h.walshIndex_pos
  upLinks_nodup := h.upLinks_nodup
  downLinks_nodup := h.downLinks_nodup
  keyed_hop := h.keyed_hop
  unkeyed_control := h.unkeyed_control
  response := h.response

/-- A command within the access matrix keeps the control state and every link, and its response conforms. -/
theorem inv_of_writesRegs {i : Instr} {s t : State} (h : Inv s) (hw : WritesRegs i s t) : Inv t := by
  obtain ⟨rf, r, rfl, hr, hkept⟩ := hw
  exact
    { walshIndex_pos := h.walshIndex_pos
      upLinks_nodup := by
        have hlinks : rf.toList.map (·.upLink) = s.cascade.regs.toList.map (·.upLink) :=
          toList_map_congr fun g => (hkept g).upLink
        exact hlinks ▸ h.upLinks_nodup
      downLinks_nodup := by
        have hlinks : rf.toList.map (·.downLink) = s.cascade.regs.toList.map (·.downLink) :=
          toList_map_congr fun g => (hkept g).downLink
        exact hlinks ▸ h.downLinks_nodup
      keyed_hop := h.keyed_hop
      unkeyed_control := fun hk => by
        obtain ⟨hcross, hhop, hwalsh, hlinks⟩ := h.unkeyed_control hk
        refine ⟨hcross, hhop, hwalsh, fun g => ?_⟩
        rw [(hkept g).upLink, (hkept g).downLink]
        exact hlinks g
      response := fun r' hr' => Option.some.inj hr' ▸ hr }

/-- A committed key meets the invariant, whatever stood before it. -/
theorem inv_committed (s : State) (p : KsPort) : Inv (s.committed p) where
  walshIndex_pos := commitKey_walshIndex_ne_zero _ _
  upLinks_nodup := commitKey_upLinks_nodup (randomPermutation_nodup _ _) _
  downLinks_nodup := commitKey_downLinks_nodup (randomPermutation_nodup _ _) _
  keyed_hop _ :=
    ⟨commitKey_hop_nodup s.cfg.n_le (randomPermutation_nodup _ _) _, fun _ => commitKey_hop_lt s.cfg.n_le _ _⟩
  unkeyed_control h := nomatch h
  response _ hr := Option.some.inj hr ▸ Response.conforms_ok 0 0

/-- Settles O39: an idle step changes nothing, a refused word or a command within the access matrix keeps what the
invariant speaks of, and an accepted REKEY establishes it anew. -/
theorem everyStepKeepsTheInvariant : Obligations.EveryStepKeepsTheInvariant := by
  intro s t hs h
  obtain ⟨-, rfl⟩ | ⟨c, rest, -, ⟨e, -, rfl⟩ | ⟨i, -, hexec⟩⟩ := step_cases h
  · exact hs
  · exact inv_of_writesRegs (inv_accept hs c rest) (writesRegs_raise .numSeeds _ _)
  · obtain ⟨-, p, -, rfl⟩ | ⟨-, hw⟩ := exec_cases hexec
    · exact inv_committed (s.accept c rest) p
    · exact inv_of_writesRegs (inv_accept hs c rest) hw

end Sys2Proof.Proofs
end

section
/-! SUPPORT. What the commands make of a state with its transients or its seeds erased (spec/10_state.md R16, R23). -/

namespace Sys2Proof.Machine

open Sys2Proof.Safety

theorem readField_eraseTransients (s : State) (idx : Nat) {f : Reg s.cfg.n → U64}
    (hf : ∀ r, f (Reg.eraseTransients r) = f r) :
    readField (eraseTransients s) idx f = eraseTransients (readField s idx f) := by
  by_cases h : idx < 4 * s.cfg.n
  · have hfield : f (reg (s.cascade.regs.map Reg.eraseTransients) ⟨idx, h⟩) = f (reg s.cascade.regs ⟨idx, h⟩) := by
      rw [reg_map, hf]
    rw [readField_inRange s idx f h, readField_inRange (eraseTransients s) idx f h]
    exact congrArg (eraseTransients s).answer hfield
  · rw [readField_outOfRange s idx f h, readField_outOfRange (eraseTransients s) idx f h]
    rfl

theorem writeField_eraseTransients (s : State) (idx : Nat) {f : Reg s.cfg.n → Reg s.cfg.n}
    (hf : ∀ r, f (Reg.eraseTransients r) = (f r).eraseTransients) :
    writeField (eraseTransients s) idx f = eraseTransients (writeField s idx f) := by
  by_cases h : idx < 4 * s.cfg.n
  · have hregs : updateReg (s.cascade.regs.map Reg.eraseTransients) ⟨idx, h⟩ f =
        (updateReg s.cascade.regs ⟨idx, h⟩ f).map Reg.eraseTransients :=
      (map_updateReg (fun r => (hf r).symm) s.cascade.regs ⟨idx, h⟩).symm
    calc writeField (eraseTransients s) idx f
        = (s.withRegs (updateReg (s.cascade.regs.map Reg.eraseTransients) ⟨idx, h⟩ f)).answer 0 := dif_pos h
      _ = (s.withRegs ((updateReg s.cascade.regs ⟨idx, h⟩ f).map Reg.eraseTransients)).answer 0 := by rw [hregs]
      _ = eraseTransients (writeField s idx f) := by rw [writeField, dif_pos h]; rfl
  · calc writeField (eraseTransients s) idx f
        = (eraseTransients s).raise .invalidIndex := dif_neg h
      _ = eraseTransients (writeField s idx f) := by rw [writeField, dif_neg h]; rfl

theorem rewindStates_eraseTransients {n : Nat} (rf : RegFile n) :
    rewindStates (rf.map Reg.eraseTransients) = (rewindStates rf).map Reg.eraseTransients := by
  refine regFile_ext fun g => ?_
  simp only [rewindStates_get, reg_map]
  rfl

/-- A commit carries the transients it finds over and reads nothing else of the old registers. -/
theorem commitKey_eraseTransients {n : Nat} (k : KeyMaterial n) (c : Cascade n) :
    commitKey k (c.mapRegs Reg.eraseTransients) = (commitKey k c).mapRegs Reg.eraseTransients := by
  have hregs : (commitKey k (c.mapRegs Reg.eraseTransients)).regs =
      (commitKey k c).regs.map Reg.eraseTransients := by
    refine regFile_ext fun g => ?_
    simp only [reg_commitKey, reg_map, commitReg, Cascade.mapRegs_regs]
    rfl
  exact congrArg (fun rf => { commitKey k c with regs := rf }) hregs

theorem exec_rekey_eraseTransients (s : State) :
    ∃ a, exec .rekey s = .next a ∧ exec .rekey (eraseTransients s) = .next (eraseTransients a) := by
  cases h : openKeySchedule s.cfg s.ports.pwd with
  | none => exact ⟨_, exec_rekey_rejected h, exec_rekey_rejected (s := eraseTransients s) h⟩
  | some p =>
    refine ⟨_, exec_rekey_accepted h, (exec_rekey_accepted (s := eraseTransients s) h).trans ?_⟩
    exact congrArg (fun c => Host.Outcome.next ({ s with cascade := c }.answer 0))
      (commitKey_eraseTransients (drawKey s.cfg.n p).1 s.cascade)

/-- Every command but a keyed ENC or DEC does to a state with its transients erased what it does to the state. -/
theorem exec_eraseTransients (i : Instr) (s : State) (h : i = .enc ∨ i = .dec → s.cascade.keyed = false) :
    ∃ a, exec i s = .next a ∧ exec i (eraseTransients s) = .next (eraseTransients a) := by
  cases i with
  | rekey => exact exec_rekey_eraseTransients s
  | reset =>
    exact ⟨_, rfl, congrArg (fun rf => Host.Outcome.next ((s.withRegs rf).answer 0))
      (rewindStates_eraseTransients s.cascade.regs)⟩
  | enc =>
    exact ⟨_, exec_block_unkeyed (.inl rfl) (h (.inl rfl)),
      exec_block_unkeyed (s := eraseTransients s) (.inl rfl) (h (.inl rfl))⟩
  | dec =>
    exact ⟨_, exec_block_unkeyed (.inr rfl) (h (.inr rfl)),
      exec_block_unkeyed (s := eraseTransients s) (.inr rfl) (h (.inr rfl))⟩
  | numSeeds => exact ⟨_, rfl, rfl⟩
  | getSeed idx => exact ⟨_, rfl, congrArg Host.Outcome.next (readField_eraseTransients s idx fun _ => rfl)⟩
  | getState idx => exact ⟨_, rfl, congrArg Host.Outcome.next (readField_eraseTransients s idx fun _ => rfl)⟩
  | getPosUp idx => exact ⟨_, rfl, congrArg Host.Outcome.next (readField_eraseTransients s idx fun _ => rfl)⟩
  | getPosDown idx => exact ⟨_, rfl, congrArg Host.Outcome.next (readField_eraseTransients s idx fun _ => rfl)⟩
  | getWinA idx => exact ⟨_, rfl, congrArg Host.Outcome.next (readField_eraseTransients s idx fun _ => rfl)⟩
  | getWinB idx => exact ⟨_, rfl, congrArg Host.Outcome.next (readField_eraseTransients s idx fun _ => rfl)⟩
  | getLeap idx => exact ⟨_, rfl, congrArg Host.Outcome.next (readField_eraseTransients s idx fun _ => rfl)⟩
  | setSeed idx => exact ⟨_, rfl, congrArg Host.Outcome.next (writeField_eraseTransients s idx fun _ => rfl)⟩
  | setState idx => exact ⟨_, rfl, congrArg Host.Outcome.next (writeField_eraseTransients s idx fun _ => rfl)⟩
  | setPosUp idx => exact ⟨_, rfl, congrArg Host.Outcome.next (writeField_eraseTransients s idx fun _ => rfl)⟩
  | setPosDown idx => exact ⟨_, rfl, congrArg Host.Outcome.next (writeField_eraseTransients s idx fun _ => rfl)⟩
  | setWinA idx => exact ⟨_, rfl, congrArg Host.Outcome.next (writeField_eraseTransients s idx fun _ => rfl)⟩
  | setWinB idx => exact ⟨_, rfl, congrArg Host.Outcome.next (writeField_eraseTransients s idx fun _ => rfl)⟩
  | setLeap idx => exact ⟨_, rfl, congrArg Host.Outcome.next (writeField_eraseTransients s idx fun _ => rfl)⟩

/-- A keyed ENC or DEC overwrites every transient: with them erased before, it does exactly the same. -/
theorem exec_block_eraseTransients {s : State} {i : Instr} (hi : i = .enc ∨ i = .dec)
    (hk : s.cascade.keyed = true) : exec i (eraseTransients s) = exec i s := by
  obtain rfl | rfl := hi
  · rw [exec_enc_keyed hk, exec_enc_keyed (s := eraseTransients s) hk]
    exact congrArg (fun out => Host.Outcome.next (s.answerRegs out))
      (encoded_eraseTransients s.cfg s.cascade (blockOperand s))
  · rw [exec_dec_keyed hk, exec_dec_keyed (s := eraseTransients s) hk]
    exact congrArg (fun out => Host.Outcome.next (s.answerRegs out))
      (decoded_eraseTransients s.cfg s.cascade (blockOperand s))

/-- ENC and DEC do to a state with its seeds erased what they do to the state. -/
theorem exec_block_eraseSeeds {i : Instr} (hi : i = .enc ∨ i = .dec) (s : State) :
    ∃ a, exec i s = .next a ∧ exec i (eraseSeeds s) = .next (eraseSeeds a) := by
  cases hk : s.cascade.keyed with
  | false => exact ⟨_, exec_block_unkeyed hi hk, exec_block_unkeyed (s := eraseSeeds s) hi hk⟩
  | true =>
    obtain rfl | rfl := hi
    · exact ⟨_, exec_enc_keyed hk, (exec_enc_keyed (s := eraseSeeds s) hk).trans
        (congrArg (fun out => Host.Outcome.next (s.answerRegs out))
          (encoded_eraseSeed s.cfg s.cascade (blockOperand s)))⟩
    · exact ⟨_, exec_dec_keyed hk, (exec_dec_keyed (s := eraseSeeds s) hk).trans
        (congrArg (fun out => Host.Outcome.next (s.answerRegs out))
          (decoded_eraseSeed s.cfg s.cascade (blockOperand s)))⟩

/-- A block command leaves every register its seed (R23). -/
theorem exec_block_keeps_seeds {i : Instr} (hi : i = .enc ∨ i = .dec) {s a : State} (h : exec i s = .next a) :
    a.cascade.regs.toList.map (·.seed) = s.cascade.regs.toList.map (·.seed) := by
  obtain ⟨u, hu, rf, r, rfl, -, hkept⟩ := exec_writesRegs i s (by rintro rfl; simp at hi)
  obtain rfl := Host.Outcome.next.inj (h.symm.trans hu)
  exact toList_map_congr fun g => (hkept g).seed (by rintro j rfl; simp at hi)

end Sys2Proof.Machine
end

section
/-! PROOF. No command shows a transient, and no block command reads or writes a seed (family 10_state). -/

namespace Sys2Proof.Proofs

open Sys2Proof.Machine Sys2Proof.Safety

/-- Settles O30: through the common erased state, which a keyed ENC or DEC treats as either state and every other
command carries along. -/
theorem transientsAreUnobservable : Obligations.TransientsAreUnobservable := by
  intro s t i h
  have hkeyed : s.cascade.keyed = t.cascade.keyed := congrArg (fun u => u.cascade.keyed) h
  by_cases hblock : (i = .enc ∨ i = .dec) ∧ s.cascade.keyed = true
  · obtain ⟨hi, hk⟩ := hblock
    have hsame : exec i s = exec i t := by
      rw [← exec_block_eraseTransients hi hk, h, exec_block_eraseTransients hi (hkeyed ▸ hk)]
    obtain ⟨a, ha⟩ := exec_completes i s
    exact ⟨a, a, ha, hsame ▸ ha, rfl, rfl, fun _ _ => rfl⟩
  · have hs : i = .enc ∨ i = .dec → s.cascade.keyed = false := fun hi => by
      simpa using fun hk => hblock ⟨hi, hk⟩
    obtain ⟨a, ha, hea⟩ := exec_eraseTransients i s hs
    obtain ⟨b, hb, heb⟩ := exec_eraseTransients i t (hkeyed ▸ hs)
    have herased : eraseTransients a = eraseTransients b :=
      Host.Outcome.next.inj (hea.symm.trans ((congrArg (exec i) h).trans heb))
    exact ⟨a, b, ha, hb, by simpa using congrArg State.resp herased, herased, fun hk hi => absurd ⟨hi, hk⟩ hblock⟩

/-- Settles O31: through the common state with its seeds erased. -/
theorem blockCommandsIgnoreTheSeeds : Obligations.BlockCommandsIgnoreTheSeeds := by
  intro s t i h hi
  obtain ⟨a, ha, hea⟩ := exec_block_eraseSeeds hi s
  obtain ⟨b, hb, heb⟩ := exec_block_eraseSeeds hi t
  have herased : eraseSeeds a = eraseSeeds b :=
    Host.Outcome.next.inj (hea.symm.trans ((congrArg (exec i) h).trans heb))
  exact ⟨a, b, ha, hb, by simpa using congrArg State.resp herased, herased, exec_block_keeps_seeds hi ha,
    exec_block_keeps_seeds hi hb⟩

end Sys2Proof.Proofs
end

section
/-! SUPPORT. The bits of a block, of a half word and of a window (spec/42_cascade_transforms.md R101). -/

namespace Sys2Proof.Machine

open Sys2Proof.Safety

theorem blockBits_getLsbD_word0 (b : Block) {j : Nat} (hj : j < 64) :
    (blockBits b).getLsbD j = b.word0.getLsbD j := by
  rw [blockBits_getLsbD, if_pos hj]

theorem blockBits_getLsbD_word1 (b : Block) (j : Nat) : (blockBits b).getLsbD (64 + j) = b.word1.getLsbD j := by
  rw [blockBits_getLsbD, if_neg (by omega), Nat.add_sub_cancel_left]

theorem lo32_getLsbD (w : U64) {j : Nat} (hj : j < 32) : (lo32 w).getLsbD j = w.getLsbD j := by
  simp [lo32, hj]

theorem hi32_getLsbD (w : U64) {j : Nat} (hj : j < 32) : (hi32 w).getLsbD j = w.getLsbD (32 + j) := by
  simp [hi32, hj]

/-- The window through local register `l` is quarter `l` of the block (R90, D16). -/
theorem window_getLsbD (b : Block) (l : Fin 4) {j : Nat} (hj : j < 32) :
    (window b l).getLsbD j = (blockBits b).getLsbD (32 * l + j) := by
  match l with
  | 0 => exact (lo32_getLsbD _ hj).trans (by rw [blockBits_getLsbD_word0 b (by simp; omega)]; simp)
  | 1 => exact (hi32_getLsbD _ hj).trans (by rw [blockBits_getLsbD_word0 b (by simp; omega)]; simp)
  | 2 => exact (lo32_getLsbD _ hj).trans (blockBits_getLsbD_word1 b j).symm
  | 3 =>
    have hquarter : 32 * ((3 : Fin 4) : Nat) + j = 64 + (32 + j) := by simp; omega
    rw [hquarter, blockBits_getLsbD_word1]
    exact hi32_getLsbD _ hj

end Sys2Proof.Machine
end

section
/-! PROOF. The numbering of registers, windows and block bits (family 10_state). -/

namespace Sys2Proof.Proofs

open Sys2Proof.Machine Sys2Proof.Safety

/-- Settles O47: the numbering by definition, the windows quarter by quarter. -/
theorem windowsAreTheQuartersOfTheBlock : Obligations.WindowsAreTheQuartersOfTheBlock :=
  ⟨fun _ _ _ => rfl, fun b l _ hj => window_getLsbD b l hj,
    fun b j hj => ⟨blockBits_getLsbD_word0 b hj, blockBits_getLsbD_word1 b j⟩⟩

end Sys2Proof.Proofs
end

section
/-! SUPPORT. The clock pass and the hop pass in the closed form of Safety (spec/41_register_ring.md R93, R94,
spec/42_cascade_transforms.md R107). -/

namespace Sys2Proof.Machine

open Sys2Proof.Safety

variable {n : Nat}

/-- One clock that folds in the word `f` reads of the clocking register: `clockForward` with `f` the last input,
`clockBackward` with `f` the last output (R83, R84). -/
def clockFed (f : Reg n → U32) (rf : RegFile n) (g : RegIndex n) : RegFile n := clockWith rf g (f (reg rf g))

/-- The four clocks of one ring in ascending order (R93, R94). -/
def clockRing (f : Reg n → U32) (rf : RegFile n) (i : Fin n) : RegFile n :=
  clockFed f (clockFed f (clockFed f (clockFed f rf (ringReg i 0)) (ringReg i 1)) (ringReg i 2)) (ringReg i 3)

theorem clockAllForward_eq_clockRing : clockAllForward (n := n) = clockRing (·.lastInput) := rfl

theorem clockAllBackward_eq_clockRing : clockAllBackward (n := n) = clockRing (·.lastOutput) := rfl

/-- The state of register `h` that register `g` sees when it clocks in a pass from `rf` that has come to `t` (R46). -/
def stateSeenBy (rf t : RegFile n) (g h : RegIndex n) : U64 := if h < g then (reg t h).state else (reg rf h).state

/-- The state register `g` clocks to in a pass from `rf` that has come to `t` (R83). -/
def clockedState (f : Reg n → U32) (rf t : RegFile n) (g : RegIndex n) : U64 :=
  clockValue (reg rf g) (stateSeenBy rf t g (reg rf g).upLink) (stateSeenBy rf t g (reg rf g).downLink) (f (reg rf g))

/-- A clock pass from `rf` that has come to `t`, the registers below `m` clocked and the others not yet. -/
def ClockedBelow (f : Reg n → U32) (rf : RegFile n) (m : Nat) (t : RegFile n) : Prop :=
  ∀ g : RegIndex n, reg t g = if g.val < m then { reg rf g with state := clockedState f rf t g } else reg rf g

variable {f : Reg n → U32} {rf t : RegFile n}

theorem ClockedBelow.zero (f : Reg n → U32) (rf : RegFile n) : ClockedBelow f rf 0 rf := fun g => by simp

theorem ClockedBelow.get_of_lt {m : Nat} (h : ClockedBelow f rf m t) {g : RegIndex n} (hg : g.val < m) :
    reg t g = { reg rf g with state := clockedState f rf t g } := by
  rw [h g, if_pos hg]

theorem ClockedBelow.get_of_le {m : Nat} (h : ClockedBelow f rf m t) {g : RegIndex n} (hg : m ≤ g.val) :
    reg t g = reg rf g := by
  rw [h g, if_neg hg.not_gt]

/-- The register whose turn it is finds the states a register of its number sees. -/
theorem ClockedBelow.state_eq_stateSeenBy {g : RegIndex n} (h : ClockedBelow f rf g t) (j : RegIndex n) :
    (reg t j).state = stateSeenBy rf t g j := by
  unfold stateSeenBy
  split
  · rfl
  · rename_i hj
    rw [h.get_of_le (le_of_not_gt hj)]

/-- Clocking register `g` changes no state that a register up to `g` sees. -/
theorem stateSeenBy_clockWith {g k : RegIndex n} (hk : k ≤ g) (v : U32) (j : RegIndex n) :
    stateSeenBy rf (clockWith t g v) k j = stateSeenBy rf t k j := by
  unfold stateSeenBy
  split
  · rename_i hj
    rw [clockWith_get, if_neg (hj.trans_le hk).ne']
  · rfl

/-- One clock carries the pass on by one register. -/
theorem ClockedBelow.clockFed {g : RegIndex n} (h : ClockedBelow f rf g t) :
    ClockedBelow f rf (g + 1) (clockFed f t g) := by
  intro j
  rw [Machine.clockFed, clockWith_get]
  obtain hlt | rfl | hgt := lt_trichotomy j g
  · rw [if_neg hlt.ne', if_pos (Nat.lt_succ_of_lt hlt), h.get_of_lt hlt]
    simp only [clockedState, stateSeenBy_clockWith hlt.le]
  · rw [if_pos rfl, if_pos (Nat.lt_succ_self _)]
    simp only [clockedState, stateSeenBy_clockWith le_rfl, h.get_of_le le_rfl, h.state_eq_stateSeenBy]
  · rw [if_neg hgt.ne, if_neg (Nat.not_lt_of_ge hgt), h.get_of_le (Nat.le_of_lt hgt)]

/-- The clocks of one ring carry the pass on by one ring. -/
theorem ClockedBelow.clockRing {i : Fin n} (h : ClockedBelow f rf (4 * i) t) :
    ClockedBelow f rf (4 * (i + 1)) (clockRing f t i) :=
  ClockedBelow.clockFed (g := ringReg i 3) (ClockedBelow.clockFed (g := ringReg i 2)
    (ClockedBelow.clockFed (g := ringReg i 1) (ClockedBelow.clockFed (g := ringReg i 0) h)))

/-- The clock pass over all rings clocks every register (R93). -/
theorem clockedBelow_foldl_clockRing (f : Reg n → U32) (rf : RegFile n) :
    ClockedBelow f rf (4 * n) ((List.finRange n).foldl (clockRing f) rf) :=
  finRange_foldl_induction (fun m t => ClockedBelow f rf (4 * m) t) _ rf (.zero f rf) fun _ _ h => h.clockRing

/-- A finished clock pass has written states alone. -/
theorem ClockedBelow.get (h : ClockedBelow f rf (4 * n) t) (g : RegIndex n) :
    reg t g = { reg rf g with state := (reg t g).state } := by
  rw [h.get_of_lt g.isLt]

/-- A finished clock pass is the one of the closed form. -/
theorem ClockedBelow.isClockPass (h : ClockedBelow f rf (4 * n) t) :
    IsClockPass rf (fun g => f (reg rf g)) fun g => (reg t g).state := by
  intro g
  exact congrArg Reg.state (h.get_of_lt g.isLt)

/-- The hop pass gives every register the state that stood where `hopOrder` says (R107, R108). -/
theorem hopSeeds_get (hop : Vector (BitVec 16) (4 * n)) (rf : RegFile n) (g : RegIndex n) :
    reg (hopSeeds hop rf) g = { reg rf g with state := (reg rf (hopOrder hop g)).state } := by
  refine List.foldl_rel (r := fun (t : RegFile n) (σ : Equiv.Perm (RegIndex n)) =>
    ∀ g, reg t g = { reg rf g with state := (reg rf (σ g)).state }) (fun _ => rfl) ?_ g
  intro i _ t σ ht g
  rw [hopStep_get]
  split
  · simp only [ht, Equiv.Perm.mul_apply]
  · exact ht g

/-- What the clock pass and the hop pass after it make of a register: it keeps all but its state, which is the one the
sequential clock pass gives the register that `hopOrder` names. -/
theorem exists_clockPass (f : Reg n → U32) (hop : Vector (BitVec 16) (4 * n)) (rf : RegFile n) :
    ∃ x, IsClockPass rf (fun g => f (reg rf g)) x ∧
      ∀ g, reg (hopSeeds hop ((List.finRange n).foldl (clockRing f) rf)) g =
        { reg rf g with state := x (hopOrder hop g) } := by
  have h := clockedBelow_foldl_clockRing f rf
  refine ⟨_, h.isClockPass, fun g => ?_⟩
  rw [hopSeeds_get, h.get g]

/-- A clock pass reads no transient: passing windows through the registers before it changes nothing. -/
theorem isClockPass_of_passed {a b : RegFile n} {w : RegIndex n → U32} (h : ∀ g, reg a g = (reg b g).passed (w g))
    {folded : RegIndex n → U32} {x : RegIndex n → U64} (hx : IsClockPass a folded x) : IsClockPass b folded x := by
  intro g
  have hg := hx g
  simp only [h] at hg
  exact hg

/-- The registers of a keyed ENC or DEC, after windows `w` have passed through the registers of `b`. -/
theorem exists_clockPass_of_passed (f : Reg n → U32) (hop : Vector (BitVec 16) (4 * n)) {a b : RegFile n}
    {w : RegIndex n → U32} (h : ∀ g, reg a g = (reg b g).passed (w g)) :
    ∃ x, IsClockPass b (fun g => f ((reg b g).passed (w g))) x ∧
      ∀ g, reg (hopSeeds hop ((List.finRange n).foldl (clockRing f) a)) g =
        { (reg b g).passed (w g) with state := x (hopOrder hop g) } := by
  obtain ⟨x, hx, hregs⟩ := exists_clockPass f hop a
  simp only [h] at hx hregs
  exact ⟨x, isClockPass_of_passed h hx, hregs⟩

/-- The registers a keyed ENC leaves, in the closed form (R120). -/
theorem encoded_regs (cfg : Config) (c : Cascade cfg.n) (b : Block) :
    let w := encodeWindow c (interleave cfg (walshMask cfg c.walshIndex b))
    ∃ x, IsClockPass c.regs w x ∧
      ∀ g, reg (encoded cfg c b).2 g = { (reg c.regs g).passed (w g) with state := x (hopOrder c.hop g) } := by
  simp only [encoded, advanceForward, clockAllForward_eq_clockRing]
  exact exists_clockPass_of_passed (·.lastInput) c.hop (encodeBlock_get cfg c b)

/-- The registers a keyed DEC leaves, in the closed form: the clock folds in the recovered windows (R121). -/
theorem decoded_regs (cfg : Config) (c : Cascade cfg.n) (b : Block) :
    let w := decodeWindow c b
    ∃ x, IsClockPass c.regs (fun g => w g ^^^ lo32 (reg c.regs g).state) x ∧
      ∀ g, reg (decoded cfg c b).2 g = { (reg c.regs g).passed (w g) with state := x (hopOrder c.hop g) } := by
  simp only [decoded, advanceBackward, clockAllBackward_eq_clockRing]
  exact exists_clockPass_of_passed (·.lastOutput) c.hop (decodeBlock_get cfg c b)

end Sys2Proof.Machine
end

section
/-! SUPPORT. The step on a word that decodes (spec/30_encoding.md R60), and a commit made twice
(spec/44_key_schedule.md R136). -/

namespace Sys2Proof.Machine

/-- A presented word that decodes: the command is accepted and executed. -/
theorem step_of_decode_ok {s : State} {c : Command} {rest : List Command} {i : Instr} (hpending : s.pending = c :: rest)
    (hdecode : decode c.cmd = .ok i) : step s = exec i (s.accept c rest) := by
  simp only [step, hpending, hdecode]

/-- A commit overwrites all an earlier one wrote: repeating it changes nothing (R136). -/
theorem commitKey_commitKey {n : Nat} (k : KeyMaterial n) (c : Cascade n) :
    commitKey k (commitKey k c) = commitKey k c := by
  have hregs : (commitKey k (commitKey k c)).regs = (commitKey k c).regs := by
    refine regFile_ext fun g => ?_
    simp only [reg_commitKey, commitReg]
  exact congrArg (fun rf => { commitKey k c with regs := rf }) hregs

end Sys2Proof.Machine
end

section
/-! PROOF. The step, the repeated REKEY and the closed form of the block commands (family 20_memory). -/

namespace Sys2Proof.Proofs

open Sys2Proof.Machine Sys2Proof.Safety

/-- Settles O6: accepting the command is what takes it off the stream and samples its ports. -/
theorem stepExecutesTheDecodedCommand : Obligations.StepExecutesTheDecodedCommand :=
  fun _ _ _ _ hpending hdecode => step_of_decode_ok hpending hdecode

/-- Settles O22: a refusal writes nothing, so it is repeated; an accepted password opens the same port again, whose
draws are then committed a second time. -/
theorem rekeyTwiceIsRekeyOnce : Obligations.RekeyTwiceIsRekeyOnce := by
  intro s
  cases h : openKeySchedule s.cfg s.ports.pwd with
  | none => exact ⟨_, exec_rekey_rejected h, exec_rekey_rejected (s := s.raise .keyRejected) h⟩
  | some p =>
    have hagain : (s.committed p).committed p = s.committed p :=
      congrArg (fun c => { s with cascade := c }.answer 0) (commitKey_commitKey (drawKey s.cfg.n p).1 s.cascade)
    exact ⟨_, exec_rekey_accepted h,
      (exec_rekey_accepted (s := s.committed p) h).trans (congrArg Host.Outcome.next hagain)⟩

/-- Settles O24: the block by the encode stages, the registers by the clock pass and the hop pass after them. -/
theorem encRefinesTheClosedForm : Obligations.EncRefinesTheClosedForm := by
  intro s hkeyed
  obtain ⟨x, hpass, hregs⟩ := encoded_regs s.cfg s.cascade (blockOperand s)
  refine ⟨_, x, ?_, hpass, hregs⟩
  rw [exec_enc_keyed hkeyed, State.answerRegs, encoded, encodeBlock_block]
  rfl

/-- Settles O25: the block by the decode stages, the registers by the clock pass, fed with the recovered windows, and
the hop pass after them. -/
theorem decRefinesTheClosedForm : Obligations.DecRefinesTheClosedForm := by
  intro s hkeyed
  obtain ⟨x, hpass, hregs⟩ := decoded_regs s.cfg s.cascade (blockOperand s)
  refine ⟨_, x, ?_, hpass, hregs⟩
  rw [exec_dec_keyed hkeyed, State.answerRegs, decoded, decodeBlock_block]
  rfl

end Sys2Proof.Proofs
end

section
/-! SUPPORT. The decoder by the fields of the word (spec/30_encoding.md R61, R63, R65): a word decodes exactly when it
is the word of its well-formed command, and the words that do not decode are those R65 lists. -/

namespace Sys2Proof

theorem plainCommand_eq_ok_iff {i j : Instr} {idx : Nat} : plainCommand i idx = .ok j ↔ idx = 0 ∧ i = j := by
  unfold plainCommand
  split <;> simp [*]

theorem exists_plainCommand_eq_error_iff {i : Instr} {idx : Nat} :
    (∃ e, plainCommand i idx = .error e) ↔ idx ≠ 0 := by
  unfold plainCommand
  split <;> simp [*]

/-- The opcode map selects a command by its own operation code and index and by no others (R63). -/
theorem selectCommand_eq_ok_iff {opc idx : Nat} {i : Instr} :
    selectCommand opc idx = .ok i ↔ opc = opcOf i ∧ idx = i.idx := by
  constructor
  · intro h
    unfold selectCommand at h
    split at h
    case h_1 | h_2 | h_3 | h_4 | h_5 =>
      obtain ⟨rfl, rfl⟩ := plainCommand_eq_ok_iff.mp h
      exact ⟨rfl, rfl⟩
    case h_20 => cases h
    all_goals
      obtain rfl := Except.ok.inj h
      exact ⟨rfl, rfl⟩
  · rintro ⟨rfl, rfl⟩
    cases i <;> rfl

/-- The map rejects an operation code it does not list, and an index where none is taken (R65). -/
theorem exists_selectCommand_eq_error_iff {opc idx : Nat} :
    (∃ e, selectCommand opc idx = .error e) ↔
      (opc ∉ [0x01, 0x02, 0x03, 0x04, 0x05] ∧ (opc < 0x10 ∨ 0x1D < opc)) ∨
      (opc ∈ [0x01, 0x02, 0x03, 0x04, 0x05] ∧ idx ≠ 0) := by
  unfold selectCommand
  split
  case h_20 =>
    simp only [imp_false] at *
    have hrange : opc < 0x10 ∨ 0x1D < opc := by omega
    simp [*]
  all_goals simp [exists_plainCommand_eq_error_iff]

/-- The decoder accepts what the opcode map selects, provided the reserved bits are 0. -/
theorem decode_eq_ok_iff_select {w : BitVec 32} {i : Instr} :
    decode w = .ok i ↔ rsvField w = 0 ∧ selectCommand (opcField w) (idxField w) = .ok i := by
  unfold decode
  split
  · simp [*]
  · split <;> simp [*]

/-- The decoder rejects what the opcode map rejects, and every word whose reserved bits are not 0. -/
theorem exists_decode_eq_error_iff_select {w : BitVec 32} :
    (∃ e, decode w = .error e) ↔
      rsvField w ≠ 0 ∨ ∃ e, selectCommand (opcField w) (idxField w) = .error e := by
  unfold decode
  split
  · simp [*]
  · split <;> simp [*]

/-- A word decodes to a command exactly when its fields are the command's (R61, R63). -/
theorem decode_eq_ok_iff_fields {w : BitVec 32} {i : Instr} :
    decode w = .ok i ↔ rsvField w = 0 ∧ opcField w = opcOf i ∧ idxField w = i.idx := by
  rw [decode_eq_ok_iff_select, selectCommand_eq_ok_iff]

/-- A command word is its operation code, its reserved bits and its index side by side (R61). -/
theorem toNat_eq_fields (w : BitVec 32) : w.toNat = opcField w * 2 ^ 24 + rsvField w * 2 ^ 16 + idxField w := by
  rw [opcField_eq, rsvField_eq, idxField_eq]
  omega

/-- A word decodes to a command exactly when the command is well-formed and the word is its encoding. -/
theorem decode_eq_ok_iff_encode {w : BitVec 32} {i : Instr} :
    decode w = .ok i ↔ i.WellFormed ∧ encode i = w := by
  rw [decode_eq_ok_iff_fields]
  constructor
  · rintro ⟨hrsv, hopc, hidx⟩
    have hwf : i.WellFormed := hidx.symm.trans_lt (idxField_lt w)
    refine ⟨hwf, BitVec.eq_of_toNat_eq ?_⟩
    rw [encode_toNat hwf, toNat_eq_fields w, hrsv, hopc, hidx]
    omega
  · rintro ⟨hwf, rfl⟩
    obtain ⟨hopc, hrsv, hidx⟩ := Laws.RowBits.fields_of_parts (opcOf_lt i) hwf
    exact ⟨hrsv, hopc, hidx⟩

/-- The words that do not decode are those with `OPC` outside the map, with `RSV` not 0, or with an index where none is
taken (R65), the fields read out of the word by shifts. -/
theorem exists_decode_eq_error_iff (w : BitVec 32) : (∃ e, decode w = .error e) ↔
    ((w >>> 24).toNat ∉ [0x01, 0x02, 0x03, 0x04, 0x05] ∧ ((w >>> 24).toNat < 0x10 ∨ 0x1D < (w >>> 24).toNat)) ∨
    (w >>> 16).setWidth 8 ≠ 0#8 ∨
    ((w >>> 24).toNat ∈ [0x01, 0x02, 0x03, 0x04, 0x05] ∧ w.setWidth 16 ≠ 0#16) := by
  have hopc : (w >>> 24).toNat = opcField w := by
    rw [opcField_eq, BitVec.toNat_ushiftRight, Nat.shiftRight_eq_div_pow]
  have hrsv : (w >>> 16).setWidth 8 ≠ 0#8 ↔ rsvField w ≠ 0 := by
    simp [rsvField_eq, BitVec.toNat_eq, Nat.shiftRight_eq_div_pow]
  have hidx : w.setWidth 16 ≠ 0#16 ↔ idxField w ≠ 0 := by simp [idxField_eq, BitVec.toNat_eq]
  rw [exists_decode_eq_error_iff_select, exists_selectCommand_eq_error_iff, hopc, hrsv, hidx]
  exact or_left_comm

/-! ### The rows of the opcode map -/

/-- The commands without an index. -/
def plainCommands : List Instr := [.rekey, .reset, .enc, .dec, .numSeeds]

/-- The commands with an index, each as a function of it. -/
def indexedCommands : List (Nat → Instr) :=
  [.getSeed, .setSeed, .getState, .setState, .getPosUp, .setPosUp, .getPosDown, .setPosDown, .getWinA, .setWinA,
    .getWinB, .setWinB, .getLeap, .setLeap]

/-- Each row's match is the word of its command with index 0; its mask covers the index where none is taken (R63). -/
theorem opcodeRows_eq : Safety.opcodeRows =
    (plainCommands.map fun i => (encode i, 0xFFFFFFFF, fun _ => i)) ++
      indexedCommands.map fun f => (encode (f 0), 0xFFFF0000, f) := rfl

theorem idx_of_mem_plainCommands : ∀ i ∈ plainCommands, i.idx = 0 := by decide

theorem idx_of_mem_indexedCommands : ∀ f ∈ indexedCommands, ∀ idx, (f idx).idx = idx := by
  simp [indexedCommands, Instr.idx]

theorem opcOf_of_mem_indexedCommands : ∀ f ∈ indexedCommands, ∀ idx, opcOf (f idx) = opcOf (f 0) := by
  simp [indexedCommands, opcOf]

/-- A word that matches a row stands for the row's command with the word's index, and no other word does (R63). -/
def RowSelects (row : BitVec 32 × BitVec 32 × (Nat → Instr)) : Prop :=
  ∀ w : BitVec 32, w &&& row.2.1 = row.1 ↔ decode w = .ok (row.2.2 (idxField w))

theorem rowSelects_plain {i : Instr} (hi : i.idx = 0) : RowSelects (encode i, 0xFFFFFFFF, fun _ => i) := by
  intro w
  have hwf : i.WellFormed := by simp [Instr.WellFormed, hi]
  have hmask : w &&& 0xFFFFFFFF = w := BitVec.and_allOnes
  simp only [hmask, decode_eq_ok_iff_encode, hwf, true_and]
  exact eq_comm

/-- The index mask keeps the upper half of a word. -/
theorem and_indexMask_toNat (w : BitVec 32) : (w &&& 0xFFFF0000).toNat = w.toNat / 2 ^ 16 * 2 ^ 16 := by
  have hmask : w &&& (0xFFFF0000 : BitVec 32) = w >>> 16 <<< 16 :=
    (BitVec.shiftLeft_ushiftRight (x := w) (n := 16)).symm
  have := w.isLt
  rw [hmask, BitVec.toNat_shiftLeft, BitVec.toNat_ushiftRight, Nat.shiftRight_eq_div_pow, Nat.shiftLeft_eq]
  omega

theorem rowSelects_indexed {f : Nat → Instr} (hidx : ∀ idx, (f idx).idx = idx)
    (hopc : ∀ idx, opcOf (f idx) = opcOf (f 0)) : RowSelects (encode (f 0), 0xFFFF0000, f) := by
  intro w
  have hmatch : (encode (f 0)).toNat = opcOf (f 0) * 2 ^ 24 := by
    rw [encode_toNat (by simp [Instr.WellFormed, hidx]), hidx, add_zero]
  have hrsv : rsvField w < 2 ^ 8 := by rw [rsvField_eq]; omega
  have := idxField_lt w
  simp only [decode_eq_ok_iff_fields, hidx, hopc (idxField w), and_true, BitVec.toNat_eq]
  rw [and_indexMask_toNat, hmatch, toNat_eq_fields w]
  omega

theorem rowSelects_of_mem_opcodeRows : ∀ row ∈ Safety.opcodeRows, RowSelects row := by
  rw [opcodeRows_eq, List.forall_mem_append, List.forall_mem_map, List.forall_mem_map]
  exact ⟨fun i hi => rowSelects_plain (idx_of_mem_plainCommands i hi),
    fun f hf => rowSelects_indexed (idx_of_mem_indexedCommands f hf) (opcOf_of_mem_indexedCommands f hf)⟩

/-- Every command has a row. -/
theorem exists_opcodeRow (i : Instr) : ∃ row ∈ Safety.opcodeRows, row.2.2 i.idx = i := by
  cases i <;> simp [Safety.opcodeRows, Instr.idx]

/-- No two rows stand for the same operation code. -/
theorem opcodeRows_opc_nodup : (Safety.opcodeRows.map fun row => opcOf (row.2.2 0)).Nodup := by decide

theorem opcOf_of_mem_opcodeRows : ∀ row ∈ Safety.opcodeRows, ∀ idx, opcOf (row.2.2 idx) = opcOf (row.2.2 0) := by
  rw [opcodeRows_eq, List.forall_mem_append, List.forall_mem_map, List.forall_mem_map]
  exact ⟨fun _ _ _ => rfl, opcOf_of_mem_indexedCommands⟩

end Sys2Proof
end

section
/-! SUPPORT. What a command answered with an error has done (spec/60_exceptions.md R178): nothing but that answer; and
what a GET answers after the SET of the same field (spec/45_accessors.md R151). -/

namespace Sys2Proof.Machine

/-- A presented word that does not decode: the command is accepted and answered as illegal (R174). -/
theorem step_of_decode_error {s : State} {c : Command} {rest : List Command} {e : DecodeError}
    (hpending : s.pending = c :: rest) (hdecode : decode c.cmd = .error e) :
    step s = .next ((s.accept c rest).raise .illegalCommand) := by
  simp only [step, hpending, hdecode]

/-- From `s` to `t` the command has answered OK, or it has raised a condition and written nothing. -/
def AnsweredOrRaised (s t : State) : Prop := (∃ d e, t.resp = some ⟨0, d, e⟩) ∨ ∃ c, t = s.raise c

theorem answeredOrRaised_readField (s : State) (idx : Nat) (f : Reg s.cfg.n → U64) :
    AnsweredOrRaised s (readField s idx f) := by
  obtain ⟨d, hd⟩ := readField_answers s idx f
  exact hd ▸ .inl ⟨d, 0, rfl⟩

theorem answeredOrRaised_writeField (s : State) (idx : Nat) (f : Reg s.cfg.n → Reg s.cfg.n) :
    AnsweredOrRaised s (writeField s idx f) := by
  obtain ⟨rf, hrf, -⟩ := writeField_spec s idx f
  exact hrf ▸ .inl ⟨0, 0, rfl⟩

/-- Every command answers OK, or raises a condition before it writes anything (R178). -/
theorem exec_answeredOrRaised (i : Instr) (s : State) : ∃ t, exec i s = .next t ∧ AnsweredOrRaised s t := by
  cases i with
  | rekey =>
    cases hopen : openKeySchedule s.cfg s.ports.pwd with
    | none => exact ⟨_, exec_rekey_rejected hopen, .inr ⟨_, rfl⟩⟩
    | some p => exact ⟨_, exec_rekey_accepted hopen, .inl ⟨0, 0, rfl⟩⟩
  | enc =>
    cases hkeyed : s.cascade.keyed with
    | false => exact ⟨_, exec_block_unkeyed (.inl rfl) hkeyed, .inr ⟨_, rfl⟩⟩
    | true => exact ⟨_, exec_enc_keyed hkeyed, .inl ⟨_, _, rfl⟩⟩
  | dec =>
    cases hkeyed : s.cascade.keyed with
    | false => exact ⟨_, exec_block_unkeyed (.inr rfl) hkeyed, .inr ⟨_, rfl⟩⟩
    | true => exact ⟨_, exec_dec_keyed hkeyed, .inl ⟨_, _, rfl⟩⟩
  | reset | numSeeds => exact ⟨_, rfl, .inl ⟨_, _, rfl⟩⟩
  | getSeed | getState | getPosUp | getPosDown | getWinA | getWinB | getLeap =>
    exact ⟨_, rfl, answeredOrRaised_readField s _ _⟩
  | setSeed | setState | setPosUp | setPosDown | setWinA | setWinB | setLeap =>
    exact ⟨_, rfl, answeredOrRaised_writeField s _ _⟩

/-- A step that takes a command answers OK, or raises a condition having done no more than accept the command. -/
theorem step_answeredOrRaised {s t : State} {c : Command} {rest : List Command} (hpending : s.pending = c :: rest)
    (h : step s = .next t) : AnsweredOrRaised (s.accept c rest) t := by
  cases hdecode : decode c.cmd with
  | error e => exact .inr ⟨_, (Host.Outcome.next.inj ((step_of_decode_error hpending hdecode).symm.trans h)).symm⟩
  | ok i =>
    obtain ⟨u, hexec, hu⟩ := exec_answeredOrRaised i (s.accept c rest)
    obtain rfl : u = t := Host.Outcome.next.inj ((hexec.symm.trans (step_of_decode_ok hpending hdecode).symm).trans h)
    exact hu

/-- The state a SET leaves when its index names register `g`: that register rewritten, and OK answered (R151). -/
def State.wroteReg (s : State) (g : RegIndex s.cfg.n) (f : Reg s.cfg.n → Reg s.cfg.n) : State :=
  (s.withRegs (updateReg s.cascade.regs g f)).answer 0

theorem writeField_inRange (s : State) (idx : Nat) (f : Reg s.cfg.n → Reg s.cfg.n) (h : idx < 4 * s.cfg.n) :
    writeField s idx f = s.wroteReg ⟨idx, h⟩ f := by
  simp [writeField, State.wroteReg, h]

/-- A GET after a SET with the same index reads the register the SET wrote. -/
theorem readField_wroteReg (s : State) (idx : Nat) (f : Reg s.cfg.n → Reg s.cfg.n) (h : idx < 4 * s.cfg.n)
    (field : Reg s.cfg.n → U64) : readField (s.wroteReg ⟨idx, h⟩ f) idx field =
      (s.wroteReg ⟨idx, h⟩ f).answer (field (f (reg s.cascade.regs ⟨idx, h⟩))) := by
  have hreg : reg (s.wroteReg ⟨idx, h⟩ f).cascade.regs ⟨idx, h⟩ = f (reg s.cascade.regs ⟨idx, h⟩) :=
    (updateReg_get ..).trans (if_pos rfl)
  exact (readField_inRange (s.wroteReg ⟨idx, h⟩ f) idx field h).trans
    (congrArg (fun r => State.answer _ (field r)) hreg)

/-- A SET and a GET of one field of register `idx`: the GET answers `d`, if that is the field as the SET stores it. -/
theorem exec_get_after_set {s : State} {idx : Nat} {set get : Instr} {f : Reg s.cfg.n → Reg s.cfg.n}
    {field : (n : Nat) → Reg n → U64} {d : U64} (h : idx < 4 * s.cfg.n)
    (hset : exec set s = .next (writeField s idx f))
    (hget : ∀ t, exec get t = .next (readField t idx (field t.cfg.n))) (hd : ∀ r, field s.cfg.n (f r) = d) :
    ∃ t, exec set s = .next t ∧ exec get t = .next { t with resp := some ⟨0, d, 0⟩ } := by
  refine ⟨s.wroteReg ⟨idx, h⟩ f, hset.trans (congrArg _ (writeField_inRange s idx f h)), (hget _).trans ?_⟩
  exact congrArg _ ((readField_wroteReg s idx f h (field s.cfg.n)).trans (congrArg _ (hd _)))

/-- Truncating a word to its low `k` bits and extending it again is masking it (R66). -/
theorem setWidth_extractLsb'_zero {k : Nat} (hk : k ≤ 64) (v : U64) :
    (v.extractLsb' 0 k).setWidth 64 = v &&& BitVec.ofNat 64 (2 ^ k - 1) := by
  have hpow : 2 ^ k ≤ 2 ^ 64 := Nat.pow_le_pow_right (by decide) hk
  have hmod : v.toNat % 2 ^ k < 2 ^ 64 := (Nat.mod_lt _ (by positivity)).trans_le hpow
  apply BitVec.eq_of_toNat_eq
  rw [BitVec.toNat_and, BitVec.toNat_ofNat, Nat.mod_eq_of_lt (by omega), Nat.and_two_pow_sub_one_eq_mod]
  simpa using hmod

end Sys2Proof.Machine
end

section
/-! PROOF. The encoding, the illegal words and the errors (family 30_encoding). -/

namespace Sys2Proof.Proofs

open Sys2Proof.Machine Sys2Proof.Safety

/-- Settles O1: the word of a well-formed command is a word that decodes to it. -/
theorem decodeEncodeRoundTrip : Obligations.DecodeEncodeRoundTrip :=
  fun _ hwf => decode_eq_ok_iff_encode.mpr ⟨hwf, rfl⟩

/-- Settles O2: a decoded word has the fields of its command's word, which are all of its bits. -/
theorem encodeDecodeRoundTrip : Obligations.EncodeDecodeRoundTrip :=
  fun _ _ hdecode => decode_eq_ok_iff_encode.mp hdecode

/-- Settles O3: every row selects as the decoder does, every command has a row, and a word that matched two rows would
have two operation codes. -/
theorem decodeFollowsTheOpcodeMap : Obligations.DecodeFollowsTheOpcodeMap := by
  refine ⟨fun w i => ⟨fun hdecode => ?_, ?_⟩, (List.pairwise_map.mp opcodeRows_opc_nodup).imp_of_mem ?_⟩
  · obtain ⟨row, hmem, hrow⟩ := exists_opcodeRow i
    obtain ⟨-, -, hidx⟩ := decode_eq_ok_iff_fields.mp hdecode
    have hi : i = row.2.2 (idxField w) := by rw [hidx, hrow]
    exact ⟨row, hmem, (rowSelects_of_mem_opcodeRows row hmem w).mpr (hi ▸ hdecode), hi⟩
  · rintro ⟨row, hmem, hmatch, rfl⟩
    exact (rowSelects_of_mem_opcodeRows row hmem w).mp hmatch
  · rintro row row' hmem hmem' hne w ⟨hmatch, hmatch'⟩
    have hdecode := (rowSelects_of_mem_opcodeRows row hmem w).mp hmatch
    have hdecode' := (rowSelects_of_mem_opcodeRows row' hmem' w).mp hmatch'
    refine hne ?_
    rw [← opcOf_of_mem_opcodeRows row hmem, ← opcOf_of_mem_opcodeRows row' hmem',
      Except.ok.inj (hdecode.symm.trans hdecode')]

/-- Settles O4: the decoder rejects a word for its operation code, its reserved bits or its index, and the step raises
IllegalCommand for each. -/
theorem illegalWordsAreErrIllegal : Obligations.IllegalWordsAreErrIllegal := by
  refine ⟨exists_decode_eq_error_iff, fun s c rest hpending hillegal => ?_⟩
  obtain ⟨e, hdecode⟩ := (exists_decode_eq_error_iff c.cmd).mpr hillegal
  exact step_of_decode_error hpending hdecode

/-- Settles O14: each pair writes and reads one field, stored at its own width. -/
theorem getAfterSetAnswersTheTruncatedOperand : Obligations.GetAfterSetAnswersTheTruncatedOperand := by
  intro s idx set get mask hidx hmem
  simp only [List.mem_cons, Prod.mk.injEq, List.not_mem_nil, or_false] at hmem
  have hword : s.ports.din0 = s.ports.din0 &&& 0xFFFFFFFFFFFFFFFF#64 := BitVec.and_allOnes.symm
  have hposition : (positionOperand s).setWidth 64 = s.ports.din0 &&& 31#64 :=
    setWidth_extractLsb'_zero (by decide) _
  have hleap : (leapOperand s).setWidth 64 = s.ports.din0 &&& 15#64 := setWidth_extractLsb'_zero (by decide) _
  obtain ⟨rfl, rfl, rfl⟩ | ⟨rfl, rfl, rfl⟩ | ⟨rfl, rfl, rfl⟩ | ⟨rfl, rfl, rfl⟩ | ⟨rfl, rfl, rfl⟩ |
    ⟨rfl, rfl, rfl⟩ | ⟨rfl, rfl, rfl⟩ := hmem
  · exact exec_get_after_set (field := fun _ r => r.seed) hidx rfl (fun _ => rfl) fun _ => hword
  · exact exec_get_after_set (field := fun _ r => r.state) hidx rfl (fun _ => rfl) fun _ => hword
  · exact exec_get_after_set (field := fun _ r => r.posUp.setWidth 64) hidx rfl (fun _ => rfl) fun _ => hposition
  · exact exec_get_after_set (field := fun _ r => r.posDown.setWidth 64) hidx rfl (fun _ => rfl) fun _ => hposition
  · exact exec_get_after_set (field := fun _ r => r.winA.setWidth 64) hidx rfl (fun _ => rfl) fun _ => hposition
  · exact exec_get_after_set (field := fun _ r => r.winB.setWidth 64) hidx rfl (fun _ => rfl) fun _ => hposition
  · exact exec_get_after_set (field := fun _ r => r.leap.setWidth 64) hidx rfl (fun _ => rfl) fun _ => hleap

/-- Settles O45: an error is the answer of a raised condition, which has written nothing before it. -/
theorem errorsWriteNothing : Obligations.ErrorsWriteNothing := by
  intro s t c rest r hpending hstep hresp herror
  obtain ⟨d, e, hok⟩ | ⟨cond, rfl⟩ := step_answeredOrRaised hpending hstep
  · obtain rfl := Option.some.inj (hok.symm.trans hresp)
    exact absurd rfl herror
  · obtain rfl := Option.some.inj hresp
    exact ⟨rfl, (Response.conforms_error cond).1⟩

/-- Settles O5: the legal words are the encodings of their commands, the others fail one check of the decoder each. -/
theorem wordsDecodeAsPrinted : Obligations.WordsDecodeAsPrinted := by
  have h := decodeEncodeRoundTrip
  exact ⟨h .rekey (by decide), h .reset (by decide), h .enc (by decide), h .dec (by decide), h .numSeeds (by decide),
    h (.getSeed 0xFFFF) (by decide), h (.setState 8) (by decide), h (.getPosUp 0) (by decide),
    h (.setLeap 0xFFFF) (by decide), rfl, rfl, rfl, rfl, rfl⟩

end Sys2Proof.Proofs
end

section
/-! SUPPORT. One clock bit by bit (spec/40_shift_register.md R80, R83): the folded word stands in bits 62..31, the
shifted state under it and on both sides of it. -/

namespace Sys2Proof.Machine

open Sys2Proof.Safety

variable {n : Nat}

/-- A word folded in at bit 31 leaves the 31 bits below it to the shifted state (R83). -/
theorem fold_getLsbD_below (w : U32) (v : U64) {i : Nat} (hi : i < 31) :
    ((w.setWidth 64 <<< 31) ^^^ v).getLsbD i = v.getLsbD i := by
  simp [hi]

/-- Bit `k` of the folded word stands in bit `31 + k` (R83). -/
theorem fold_getLsbD_within (w : U32) (v : U64) {k : Nat} (hk : k < 32) :
    ((w.setWidth 64 <<< 31) ^^^ v).getLsbD (31 + k) = (v.getLsbD (31 + k) ^^ w.getLsbD k) := by
  have hfits : 31 + k < 64 := by omega
  simp [hfits, Bool.xor_comm]

/-- The folded word ends under bit 63, which is the shifted state's (R83). -/
theorem fold_getLsbD_above (w : U32) (v : U64) :
    ((w.setWidth 64 <<< 31) ^^^ v).getLsbD 63 = v.getLsbD 63 := by
  simp

/-- Bit 63 of a shifted word is 0 unless the shift is by nothing. -/
theorem ushiftRight_getLsbD_top (v : U64) (m : BitVec 4) :
    (v >>> m.toNat).getLsbD 63 = (decide (m = 0) && v.getLsbD 63) := by
  rw [BitVec.getLsbD_ushiftRight]
  by_cases h : m = 0
  · simp [h]
  · have hpos : m.toNat ≠ 0 := fun h0 => h (BitVec.eq_of_toNat_eq h0)
    rw [BitVec.getLsbD_of_ge _ _ (by omega), decide_eq_false h, Bool.false_and]

/-- Bit `k` of a window is bit `k` above the window's position (R80). -/
theorem lo32_ushiftRight_getLsbD (v : U64) (p : BitVec 5) {k : Nat} (hk : k < 32) :
    (lo32 (v >>> p.toNat)).getLsbD k = v.getLsbD (k + p.toNat) := by
  rw [lo32_getLsbD _ hk, BitVec.getLsbD_ushiftRight, Nat.add_comm]

theorem clockValue_getLsbD_below (r : Reg n) (up down : U64) (folded : U32) {i : Nat} (hi : i < 31) :
    (clockValue r up down folded).getLsbD i = r.state.getLsbD (i + r.leap.toNat) := by
  rw [clockValue, fold_getLsbD_below _ _ hi, BitVec.getLsbD_ushiftRight, Nat.add_comm]

theorem clockValue_getLsbD_within (r : Reg n) (up down : U64) (folded : U32) {k : Nat} (hk : k < 32) :
    (clockValue r up down folded).getLsbD (31 + k) =
      (r.state.getLsbD (31 + k + r.leap.toNat) ^^ r.state.getLsbD (k + r.winA.toNat) ^^
        up.getLsbD (k + r.posUp.toNat) ^^ r.state.getLsbD (k + r.winB.toNat) ^^
        down.getLsbD (k + r.posDown.toNat) ^^ folded.getLsbD k) := by
  rw [clockValue, fold_getLsbD_within _ _ hk, BitVec.getLsbD_ushiftRight, Nat.add_comm r.leap.toNat]
  simp only [BitVec.getLsbD_xor, lo32_ushiftRight_getLsbD _ _ hk, Bool.xor_assoc]

theorem clockValue_getLsbD_above (r : Reg n) (up down : U64) (folded : U32) :
    (clockValue r up down folded).getLsbD 63 = (decide (r.leap = 0) && r.state.getLsbD 63) := by
  rw [clockValue, fold_getLsbD_above, ushiftRight_getLsbD_top]

/-- The register that clocks keeps all but its state (R83). -/
theorem clockWith_get_self (rf : RegFile n) (g : RegIndex n) (v : U32) :
    reg (clockWith rf g v) g =
      { reg rf g with
        state := clockValue (reg rf g) (reg rf (reg rf g).upLink).state (reg rf (reg rf g).downLink).state v } := by
  rw [clockWith_get, if_pos rfl]

/-- A clock leaves every other register as it is (R83). -/
theorem clockWith_get_of_ne (rf : RegFile n) {g j : RegIndex n} (h : j ≠ g) (v : U32) :
    reg (clockWith rf g v) j = reg rf j := by
  rw [clockWith_get, if_neg h.symm]

end Sys2Proof.Machine
end

section
/-! PROOF. One clock of one register (family 40_shift_register). -/

namespace Sys2Proof.Proofs

open Sys2Proof.Machine Sys2Proof.Safety

/-- Settles O37: both clocks are the one advance with another folded word, whose state is read range by range. -/
theorem clockShiftsAndFoldsBitByBit : Obligations.ClockShiftsAndFoldsBitByBit := by
  intro n rf g r old up down clock folded hmem
  have hclock : clock rf g = clockWith rf g folded := by
    simp only [List.mem_cons, Prod.mk.injEq, List.not_mem_nil, or_false] at hmem
    obtain ⟨rfl, rfl⟩ | ⟨rfl, rfl⟩ := hmem
    · rfl
    · rfl
  rw [hclock]
  refine ⟨fun i hi => ?below, fun k hk => ?within, ?above, ?field, fun j hj => clockWith_get_of_ne rf hj folded⟩
  all_goals rw [clockWith_get_self]
  case below => exact clockValue_getLsbD_below r up down folded hi
  case within => exact clockValue_getLsbD_within r up down folded hk
  case above => exact clockValue_getLsbD_above r up down folded

end Sys2Proof.Proofs
end

section
/-! SUPPORT. CrossPermute on the half words, row by row of its table (spec/42_cascade_transforms.md R105, R106), and
Interleave and DeInterleave on the bits of a block (R102, R103). -/

namespace Sys2Proof.Machine

/-! ### CrossPermute on the half words -/

theorem crossPermute_zero (b : Block) :
    crossPermute 0 b = ⟨cat32 (hi32 b.word0) (hi32 b.word1), cat32 (lo32 b.word0) (lo32 b.word1)⟩ := rfl

theorem crossPermute_one (b : Block) :
    crossPermute 1 b = ⟨cat32 (lo32 b.word1) (lo32 b.word0), cat32 (hi32 b.word1) (hi32 b.word0)⟩ := rfl

theorem crossPermute_two (b : Block) :
    crossPermute 2 b = ⟨cat32 (lo32 b.word0) (hi32 b.word0), cat32 (lo32 b.word1) (hi32 b.word1)⟩ := rfl

theorem crossPermute_three (b : Block) :
    crossPermute 3 b = ⟨cat32 (lo32 b.word1) (hi32 b.word1), cat32 (lo32 b.word0) (hi32 b.word0)⟩ := rfl

/-- The four codes of CrossPermute (R105). -/
theorem crossCode_cases (op : BitVec 2) : op = 0 ∨ op = 1 ∨ op = 2 ∨ op = 3 := by
  revert op
  decide

/-- Each row of the table is its own inverse (R106). -/
theorem crossPermute_involutive (op : BitVec 2) : Function.Involutive (crossPermute op) := by
  intro b
  obtain rfl | rfl | rfl | rfl := crossCode_cases op
  · simp only [crossPermute_zero, hi32_cat32, lo32_cat32, cat32_halves]
  · simp only [crossPermute_one, hi32_cat32, lo32_cat32, cat32_halves]
  · simp only [crossPermute_two, hi32_cat32, lo32_cat32, cat32_halves]
  · simp only [crossPermute_three, hi32_cat32, lo32_cat32, cat32_halves]

/-- A block of four different half words: it tells the rows of the table apart. -/
def fourHalves : Block := ⟨cat32 1 2, cat32 3 4⟩

theorem crossPermute_fourHalves_ne (op : BitVec 2) : crossPermute op fourHalves ≠ fourHalves := by
  revert op
  decide

theorem crossPermute_fourHalves_inj {op op' : BitVec 2} :
    crossPermute op fourHalves = crossPermute op' fourHalves → op = op' := by
  revert op op'
  decide

/-! ### Interleave and DeInterleave on the bits -/

/-- Blocks with the same bits are the same. -/
theorem block_ext_bits {a b : Block} (h : ∀ j : Fin 128, (blockBits a).getLsbD j = (blockBits b).getLsbD j) :
    a = b :=
  Function.LeftInverse.injective blockOfBits_blockBits (BitVec.eq_of_getLsbD_eq fun i hi => h ⟨i, hi⟩)

theorem blockBits_zero : blockBits ⟨0, 0⟩ = 0#128 := by decide

theorem blockBits_allOnes : blockBits ⟨BitVec.allOnes 64, BitVec.allOnes 64⟩ = BitVec.allOnes 128 := by decide

/-- Assigning every bit of a block once, at different positions, puts each where it is said to go. -/
theorem foldl_setBlockBit_getLsbD {p : Fin 128 → Fin 128} (hp : Function.Injective p) (v : Fin 128 → Bool)
    (B : BitVec 128) (j : Fin 128) :
    ((List.finRange 128).foldl (fun B' i => setBlockBit B' (p i) (v i)) B).getLsbD (p j) = v j := by
  refine finRange_foldl_induction
    (fun m (B' : BitVec 128) => ∀ j : Fin 128, j.val < m → B'.getLsbD (p j) = v j) _ B (by simp) ?step j j.isLt
  case step =>
    intro i B' hB' j hj
    rw [setBlockBit_getLsbD]
    by_cases hij : i = j
    · rw [hij, if_pos rfl]
    · rw [if_neg (hp.ne hij)]
      exact hB' j (by omega)

/-- The Interleave map names no position twice (R8). -/
theorem ilv_injective (cfg : Config) : Function.Injective fun j : Fin 128 => cfg.ilv[j] := by
  intro i j h
  have hnodup := cfg.ilv_nodup.getElem_inj_iff (i := i) (j := j) (hi := by simp) (hj := by simp)
  exact Fin.ext (hnodup.mp (by simpa using h))

/-- The Interleave map as a permutation of the bit positions (R8). -/
noncomputable def ilvEquiv (cfg : Config) : Equiv.Perm (Fin 128) :=
  Equiv.ofBijective _ (Finite.injective_iff_bijective.mp (ilv_injective cfg))

@[simp] theorem ilvEquiv_apply (cfg : Config) (j : Fin 128) : ilvEquiv cfg j = cfg.ilv[j] := rfl

/-- Interleave moves bit `j` to `ILV(j)` (R102). -/
theorem interleave_getLsbD (cfg : Config) (b : Block) (j : Fin 128) :
    (blockBits (interleave cfg b)).getLsbD cfg.ilv[j] = (blockBits b).getLsbD j := by
  rw [interleave, blockBits_blockOfBits]
  exact foldl_setBlockBit_getLsbD (ilv_injective cfg) _ 0 j

/-- DeInterleave takes bit `j` from `ILV(j)` (R103). -/
theorem deInterleave_getLsbD (cfg : Config) (b : Block) (j : Fin 128) :
    (blockBits (deInterleave cfg b)).getLsbD j = (blockBits b).getLsbD cfg.ilv[j] := by
  rw [deInterleave, blockBits_blockOfBits]
  exact foldl_setBlockBit_getLsbD Function.injective_id _ 0 j

/-- A block that holds bit `j` of `b` at `ILV(j)`, for every `j`, is Interleave of `b`: no position is left open. -/
theorem interleave_eq_of_getLsbD {cfg : Config} {b c : Block}
    (h : ∀ j : Fin 128, (blockBits c).getLsbD cfg.ilv[j] = (blockBits b).getLsbD j) : interleave cfg b = c := by
  refine block_ext_bits fun k => ?_
  obtain ⟨j, rfl⟩ := (ilvEquiv cfg).surjective k
  rw [ilvEquiv_apply, interleave_getLsbD, h]

theorem interleave_zero (cfg : Config) : interleave cfg ⟨0, 0⟩ = ⟨0, 0⟩ :=
  interleave_eq_of_getLsbD fun j => by simp only [blockBits_zero, BitVec.getLsbD_zero]

theorem interleave_allOnes (cfg : Config) :
    interleave cfg ⟨BitVec.allOnes 64, BitVec.allOnes 64⟩ = ⟨BitVec.allOnes 64, BitVec.allOnes 64⟩ :=
  interleave_eq_of_getLsbD fun j => by simp only [blockBits_allOnes, BitVec.getLsbD_allOnes, Fin.is_lt, decide_true]

theorem interleave_blockXor (cfg : Config) (b c : Block) :
    interleave cfg (blockXor b c) = blockXor (interleave cfg b) (interleave cfg c) :=
  interleave_eq_of_getLsbD fun j => by simp only [blockBits_xor, BitVec.getLsbD_xor, interleave_getLsbD]

/-- Interleave keeps the number of 1 bits: counting over all positions is counting over their images under `ILV`. -/
theorem countP_interleave (cfg : Config) (b : Block) :
    (List.finRange 128).countP (fun j : Fin 128 => (blockBits (interleave cfg b)).getLsbD j) =
      (List.finRange 128).countP (fun j : Fin 128 => (blockBits b).getLsbD j) := by
  rw [← (ilvEquiv cfg).map_finRange_perm.countP_eq, List.countP_map]
  simp only [Function.comp_def, ilvEquiv_apply, interleave_getLsbD]

theorem deInterleave_interleave (cfg : Config) (b : Block) : deInterleave cfg (interleave cfg b) = b :=
  block_ext_bits fun j => by rw [deInterleave_getLsbD, interleave_getLsbD]

theorem interleave_deInterleave (cfg : Config) (b : Block) : interleave cfg (deInterleave cfg b) = b :=
  interleave_eq_of_getLsbD fun j => (deInterleave_getLsbD cfg b j).symm

end Sys2Proof.Machine
end

section
/-! PROOF. The cascade's block transforms and the hop pass (family 42_cascade_transforms). -/

namespace Sys2Proof.Proofs

open Sys2Proof.Machine

/-- Settles O33: the rows on a block given by its half words; a block of four different half words is moved by every
row. -/
theorem crossPermuteFollowsItsTable : Obligations.CrossPermuteFollowsItsTable := by
  intro H0 L0 H1 L1 b
  refine ⟨?_, ?_, ?_, ?_, fun op => ⟨fourHalves, crossPermute_fourHalves_ne op⟩⟩
  · simp only [b, crossPermute_zero, hi32_cat32, lo32_cat32]
  · simp only [b, crossPermute_one, hi32_cat32, lo32_cat32]
  · simp only [b, crossPermute_two, hi32_cat32, lo32_cat32]
  · simp only [b, crossPermute_three, hi32_cat32, lo32_cat32]

/-- Settles O34: were `op'` the inverse of `op`, it would have to agree with it, as each is its own inverse; the
transposition 0 and the swap of halves 2 do not commute. -/
theorem crossPermuteIsItsOwnInverse : Obligations.CrossPermuteIsItsOwnInverse := by
  refine ⟨crossPermute_involutive, fun op op' hne => ⟨fourHalves, fun h => ?_⟩, 0, 2, fourHalves, by decide⟩
  have hagree : crossPermute op fourHalves = crossPermute op' fourHalves := (crossPermute_involutive op').eq_iff.mp h
  exact hne (crossPermute_fourHalves_inj hagree)

/-- Settles O35: all but the count of 1 bits follow from where each bit goes. -/
theorem interleaveMovesEachBit : Obligations.InterleaveMovesEachBit :=
  fun cfg b c => ⟨interleave_getLsbD cfg b, countP_interleave cfg b, interleave_zero cfg, interleave_allOnes cfg,
    interleave_blockXor cfg b c⟩

/-- Settles O36: DeInterleave reads each bit where Interleave has put it, and the other way round. -/
theorem deInterleaveInvertsInterleave : Obligations.DeInterleaveInvertsInterleave :=
  fun cfg b => ⟨deInterleave_getLsbD cfg b, deInterleave_interleave cfg b, interleave_deInterleave cfg b⟩

/-- Settles O38: the pass and `hopOrder` fold over the same entries, each hop one more factor of the product. -/
theorem hopSeedsPermutesTheStates : Obligations.HopSeedsPermutesTheStates :=
  fun _ hop rf g => hopSeeds_get hop rf g

end Sys2Proof.Proofs
end

section
/-! SUPPORT. DEC's data steps undo ENC's (spec/43_block_commands.md R122): the block that enters ring `m` in the decode
direction is the one that left it in the encode direction, so the recovered windows are the encoder's input windows. -/

namespace Sys2Proof.Machine

open Sys2Proof.Safety

variable {n : Nat}

/-- The block that leaves ring `m` in the encode direction, `b` entering ring 0 (R91, R120). -/
def encodeOutput (c : Cascade n) (b : Block) (m : Nat) (h : m < n) : Block :=
  blockXor (encodeInput c b m h) (keystream c.regs ⟨m, h⟩)

theorem encodeInput_succ (c : Cascade n) (b : Block) (m : Nat) (h : m + 1 < n) :
    encodeInput c b (m + 1) h = crossPermute (c.cross[m]'(by omega)) (encodeOutput c b m (by omega)) := rfl

theorem encoded_block (cfg : Config) (c : Cascade cfg.n) (b : Block) :
    (encoded cfg c b).1 =
      encodeOutput c (interleave cfg (walshMask cfg c.walshIndex b)) (cfg.n - 1) (lastRing cfg).isLt :=
  encodeBlock_block cfg c b

theorem window_blockXor (a b : Block) (l : Fin 4) : window (blockXor a b) l = window a l ^^^ window b l := by
  match l with
  | 0 => exact lo32_xor _ _
  | 1 => exact hi32_xor _ _
  | 2 => exact lo32_xor _ _
  | 3 => exact hi32_xor _ _

/-- The keystream's window for a register is the low half of that register's state (R91). -/
theorem window_keystream (rf : RegFile n) (i : Fin n) (l : Fin 4) :
    window (keystream rf i) l = lo32 (reg rf (ringReg i l)).state := by
  match l with
  | 0 => exact lo32_cat32 _ _
  | 1 => exact hi32_cat32 _ _
  | 2 => exact lo32_cat32 _ _
  | 3 => exact hi32_cat32 _ _

section
variable {c p : Cascade n} (hcross : p.cross = c.cross)
  (hstate : ∀ g : RegIndex n, (reg p.regs g).state = (reg c.regs g).state)

include hcross hstate

/-- Fed with what left the last ring, the decode direction retraces the encode direction ring by ring, from the last
down to ring `m`. -/
theorem decodeInput_encodeOutput (b : Block) {m : Nat} (h : m ≤ n - 1) (hn : 0 < n) :
    decodeInput p (encodeOutput c b (n - 1) (by omega)) (n - 1 - m) (by omega) = encodeOutput c b m (by omega) := by
  induction h using Nat.decreasingInduction with
  | self => simp only [Nat.sub_self, decodeInput]
  | of_succ m hm ih =>
    rw [decodeInput_descend p _ m (by omega), ih, keystream_congr hstate, encodeOutput, blockXor_cancel,
      encodeInput_succ]
    simp only [hcross]
    exact crossPermute_involutive _ _

/-- The window a register recovers by decoding is the one it encoded. -/
theorem decodeWindow_encodeOutput (b : Block) (g : RegIndex n) :
    decodeWindow p (encodeOutput c b (n - 1) (Nat.sub_one_lt_of_lt (ringOf g).isLt)) g ^^^
      lo32 (reg p.regs g).state = encodeWindow c b g := by
  have hring := (ringOf g).isLt
  have hkey : window (keystream c.regs (ringOf g)) (localOf g) = lo32 (reg p.regs g).state := by
    rw [window_keystream, ringReg_ringOf, hstate]
  rw [decodeWindow, decodeInput_encodeOutput hcross hstate b (Nat.le_sub_one_of_lt hring) (by omega), encodeOutput,
    window_blockXor, hkey, BitVec.xor_assoc, BitVec.xor_self, BitVec.xor_zero, encodeWindow]

end

/-- What one cascade encodes, a cascade with the same tables and states decodes (R122). -/
theorem decoded_encoded_block {cfg : Config} {c p : Cascade cfg.n} (hwalsh : p.walshIndex = c.walshIndex)
    (hcross : p.cross = c.cross) (hstate : ∀ g, (reg p.regs g).state = (reg c.regs g).state) (b : Block) :
    (decoded cfg p (encoded cfg c b).1).1 = b := by
  have hfirst := decodeInput_encodeOutput hcross hstate (interleave cfg (walshMask cfg c.walshIndex b))
    (Nat.zero_le _) (firstRing cfg).pos
  simp only [Nat.sub_zero] at hfirst
  rw [decoded, decodeBlock_block, encoded_block, hfirst, keystream_congr hstate, hwalsh, encodeOutput]
  simp only [firstRing, blockXor_cancel, encodeInput, deInterleave_interleave, walshMask_walshMask]

end Sys2Proof.Machine
end

section
/-! SUPPORT. One block keeps two cascades in lockstep (spec/43_block_commands.md R123): a clock pass is fixed by the
states, the parameters, the links and the folded words, and the two fold in the same words. -/

namespace Sys2Proof.Machine

variable {n : Nat}

/-- A register as the clock reads it: what lockstep compares (R123). -/
def Reg.clocking (r : Reg n) : Reg n := { r with seed := 0, lastInput := 0, lastOutput := 0 }

/-- A cascade with its registers replaced: what a block command leaves. -/
def Cascade.withRegs (c : Cascade n) (rf : RegFile n) : Cascade n := { c with regs := rf }

end Sys2Proof.Machine

namespace Sys2Proof.Safety

open Sys2Proof.Machine

variable {n : Nat}

/-- The sequential clock pass has one result: each register's new state is fixed by those of lower numbers (R93). -/
theorem IsClockPass.unique {rf : RegFile n} {folded : RegIndex n → U32} {x y : RegIndex n → U64}
    (hx : IsClockPass rf folded x) (hy : IsClockPass rf folded y) : x = y := by
  funext g
  induction g using WellFoundedLT.induction with
  | ind g ih =>
    have hseen : ∀ (j : RegIndex n) (v : U64), (if j < g then x j else v) = if j < g then y j else v := fun j v => by
      split
      · exact ih j ‹_›
      · rfl
    rw [hx g, hy g, hseen, hseen]

theorem IsClockPass.map_clocking {rf : RegFile n} {folded : RegIndex n → U32} {x : RegIndex n → U64}
    (hx : IsClockPass rf folded x) : IsClockPass (rf.map Reg.clocking) folded x := by
  intro g
  simp only [reg_map]
  exact hx g

/-- Registers that clock alike and fold in the same words clock to the same states. -/
theorem IsClockPass.eq_of_clocking_eq {a b : RegFile n} (h : ∀ g, (reg a g).clocking = (reg b g).clocking)
    {folded : RegIndex n → U32} {x y : RegIndex n → U64} (hx : IsClockPass a folded x) (hy : IsClockPass b folded y) :
    x = y := by
  have hmap : a.map Reg.clocking = b.map Reg.clocking := regFile_ext fun g => by simp only [reg_map, h]
  exact IsClockPass.unique (hmap ▸ IsClockPass.map_clocking hx) (IsClockPass.map_clocking hy)

theorem Lockstep.refl (a : Cascade n) : Lockstep a a := ⟨rfl, rfl, rfl, rfl, fun _ => rfl⟩

theorem Lockstep.state_eq {a b : Cascade n} (h : Lockstep a b) (g : RegIndex n) :
    (reg b.regs g).state = (reg a.regs g).state := by
  obtain ⟨-, -, -, -, hregs⟩ := h
  exact (congrArg Reg.state (hregs g)).symm

/-- One block through two cascades in lockstep: the second gives it back (R122). -/
theorem Lockstep.decoded_block {cfg : Config} {a b : Cascade cfg.n} (h : Lockstep a b) (x : Block) :
    (decoded cfg b (encoded cfg a x).1).1 = x := by
  have hstate := Lockstep.state_eq h
  obtain ⟨hcross, -, hwalsh, -, -⟩ := h
  exact decoded_encoded_block hwalsh.symm hcross.symm hstate x

/-- One block through two cascades in lockstep leaves them in lockstep (R123). -/
theorem Lockstep.withRegs {cfg : Config} {a b : Cascade cfg.n} (h : Lockstep a b) (x : Block) :
    Lockstep (a.withRegs (encoded cfg a x).2) (b.withRegs (decoded cfg b (encoded cfg a x).1).2) := by
  have hstate := Lockstep.state_eq h
  obtain ⟨hcross, hhop, hwalsh, hkeyed, hregs⟩ := h
  obtain ⟨y, hy, henc⟩ := encoded_regs cfg a x
  obtain ⟨z, hz, hdec⟩ := decoded_regs cfg b (encoded cfg a x).1
  simp only [encoded_block, decodeWindow_encodeOutput hcross.symm hstate] at hz
  obtain rfl : y = z := IsClockPass.eq_of_clocking_eq hregs hy hz
  refine ⟨hcross, hhop, hwalsh, hkeyed, fun g => ?_⟩
  simp only [Cascade.withRegs, henc, hdec, hhop]
  exact congrArg (fun r : Reg cfg.n => { r with state := y (hopOrder b.hop g) }) (hregs g)

end Sys2Proof.Safety
end

section
/-! SUPPORT. Runs of block commands through a keyed cascade (spec/43_block_commands.md R120, R121, R123): what an encoder
and a decoder in lockstep make of a sequence of blocks. -/

namespace Sys2Proof.Machine

open Sys2Proof.Safety

theorem runBlock_enc_keyed {cfg : Config} {c : Cascade cfg.n} (hk : c.keyed = true) (ports : Ports)
    (pending : List Command) (resp : Option Response) (b : Block) :
    runBlock .enc ⟨cfg, c, ports, pending, resp⟩ b =
      some (⟨cfg, c.withRegs (encoded cfg c b).2, ⟨b.word0, b.word1, ports.pwd⟩, pending,
        some ⟨0, (encoded cfg c b).1.word0, (encoded cfg c b).1.word1⟩⟩, (encoded cfg c b).1) := by
  rw [runBlock, exec_enc_keyed hk]
  rfl

/-- A keyed DEC whose data steps give block `x` answers `x` (R121). -/
theorem exec_dec_of_decoded {cfg : Config} {c : Cascade cfg.n} (hk : c.keyed = true) {b x : Block}
    (hx : (decoded cfg c b).1 = x) (pwd : Password) (pending : List Command) (resp : Option Response) :
    exec .dec ⟨cfg, c, ⟨b.word0, b.word1, pwd⟩, pending, resp⟩ =
      .next ⟨cfg, c.withRegs (decoded cfg c b).2, ⟨b.word0, b.word1, pwd⟩, pending,
        some ⟨0, x.word0, x.word1⟩⟩ := by
  subst hx
  exact exec_dec_keyed hk

theorem runBlock_dec_of_decoded {cfg : Config} {c : Cascade cfg.n} (hk : c.keyed = true) {b x : Block}
    (hx : (decoded cfg c b).1 = x) (ports : Ports) (pending : List Command) (resp : Option Response) :
    runBlock .dec ⟨cfg, c, ports, pending, resp⟩ b =
      some (⟨cfg, c.withRegs (decoded cfg c b).2, ⟨b.word0, b.word1, ports.pwd⟩, pending,
        some ⟨0, x.word0, x.word1⟩⟩, x) := by
  rw [runBlock, exec_dec_of_decoded hk hx]
  rfl

/-- The state RESET leaves (R138). -/
def State.rewound (s : State) : State := (s.withRegs (rewindStates s.cascade.regs)).answer 0

theorem exec_reset (s : State) : exec .reset s = .next s.rewound := rfl

/-- Block command `i` takes cascade `c` to `c'` and answers `blocks` with `outputs`, whatever the ports, the command
stream and the response; it leaves the stream alone. -/
def Runs (i : Instr) (cfg : Config) (c : Cascade cfg.n) (blocks outputs : List Block) (c' : Cascade cfg.n) : Prop :=
  ∀ (ports : Ports) (pending : List Command) (resp : Option Response), ∃ q v,
    runBlocks i ⟨cfg, c, ports, pending, resp⟩ blocks = some (⟨cfg, c', q, pending, v⟩, outputs)

theorem Runs.nil (i : Instr) (cfg : Config) (c : Cascade cfg.n) : Runs i cfg c [] [] c :=
  fun _ _ _ => ⟨_, _, rfl⟩

theorem Runs.cons {i : Instr} {cfg : Config} {c d e : Cascade cfg.n} {b x : Block} {bs xs : List Block}
    (hblocks : Runs i cfg d bs xs e)
    (hblock : ∀ ports pending resp, ∃ q v,
      runBlock i ⟨cfg, c, ports, pending, resp⟩ b = some (⟨cfg, d, q, pending, v⟩, x)) :
    Runs i cfg c (b :: bs) (x :: xs) e := by
  intro ports pending resp
  obtain ⟨q, v, hfirst⟩ := hblock ports pending resp
  obtain ⟨q', v', hrest⟩ := hblocks q pending v
  exact ⟨q', v', by simp only [runBlocks, hfirst, hrest]⟩

/-- `c'` has the registers of `c` but for what the block commands write: states and transients (R23). -/
def SameButWorking {n : Nat} (c c' : Cascade n) : Prop :=
  ∀ g : RegIndex n, (reg c'.regs g).eraseWorking = (reg c.regs g).eraseWorking

/-- What one cascade encodes, a cascade in lockstep with it decodes, block after block, and the two stay in lockstep
(R123). -/
theorem exists_roundTrip (cfg : Config) (blocks : List Block) {a b : Cascade cfg.n} (hk : a.keyed = true)
    (hlock : Lockstep a b) :
    ∃ outputs a' b', Runs .enc cfg a blocks outputs a' ∧ Runs .dec cfg b outputs blocks b' ∧ Lockstep a' b' ∧
      SameButWorking a a' ∧ SameButWorking b b' := by
  induction blocks generalizing a b with
  | nil => exact ⟨[], a, b, .nil .enc cfg a, .nil .dec cfg b, hlock, fun _ => rfl, fun _ => rfl⟩
  | cons x xs ih =>
    have hkb : b.keyed = true := by
      obtain ⟨-, -, -, hkeyed, -⟩ := hlock
      exact hkeyed ▸ hk
    obtain ⟨outputs, a', b', henc, hdec, hlock', ha, hb⟩ :=
      ih (a := a.withRegs (encoded cfg a x).2) hk (Lockstep.withRegs hlock x)
    exact ⟨_, a', b', henc.cons fun _ _ _ => ⟨_, _, runBlock_enc_keyed hk _ _ _ x⟩,
      hdec.cons fun _ _ _ => ⟨_, _, runBlock_dec_of_decoded hkb (Lockstep.decoded_block hlock x) _ _ _⟩, hlock',
      fun g => (ha g).trans (reg_encoded_eraseWorking cfg a x g),
      fun g => (hb g).trans (reg_decoded_eraseWorking cfg b _ g)⟩

/-- Registers that clock alike and have the same seed differ in transients only. -/
theorem Reg.eraseTransients_eq_of {n : Nat} {r r' : Reg n} (hkept : r.eraseWorking = r'.eraseWorking)
    (hlock : r.clocking = r'.clocking) : r.eraseTransients = r'.eraseTransients := by
  simp only [Reg.eraseWorking, Reg.clocking, Reg.eraseTransients, Reg.mk.injEq] at hkept hlock ⊢
  obtain ⟨hseed, -⟩ := hkept
  obtain ⟨-, hrest⟩ := hlock
  exact ⟨hseed, hrest⟩

/-- Cascades in lockstep that also share all that no block command writes are the same but for transients. -/
theorem mapRegs_eraseTransients_eq_of_lockstep {n : Nat} {a b c : Cascade n} (hlock : Lockstep a b)
    (ha : SameButWorking c a) (hb : SameButWorking c b) :
    b.mapRegs Reg.eraseTransients = a.mapRegs Reg.eraseTransients := by
  obtain ⟨hcross, hhop, hwalsh, hkeyed, hregs⟩ := hlock
  have hfile : b.regs.map Reg.eraseTransients = a.regs.map Reg.eraseTransients := regFile_ext fun g => by
    simp only [reg_map, Reg.eraseTransients_eq_of ((hb g).trans (ha g).symm) (hregs g).symm]
  simp only [Cascade.mapRegs, hfile, hcross, hhop, hwalsh, hkeyed]

end Sys2Proof.Machine
end

section
/-! PROOF. The block commands: round trip, lockstep and freshly keyed start (family 43_block_commands). -/

namespace Sys2Proof.Proofs

open Sys2Proof.Machine Sys2Proof.Safety

/-- Settles O27: by induction on the blocks, each of which keeps the lockstep. -/
theorem lockstepIsKeptAlongABlockSequence : Obligations.LockstepIsKeptAlongABlockSequence := by
  intro s peer ports pending resp blocks hkeyed hlock
  obtain ⟨outputs, a, b, henc, hdec, hlock', -, -⟩ := exists_roundTrip s.cfg blocks hkeyed hlock
  obtain ⟨p, u, hencRun⟩ := henc s.ports s.pending s.resp
  obtain ⟨q, v, hdecRun⟩ := hdec ports pending resp
  exact ⟨outputs, a, b, p, q, u, v, hencRun, hdecRun, hlock'⟩

/-- Settles O26: the decode direction retraces the encode direction ring by ring. -/
theorem decodeUndoesEncode : Obligations.DecodeUndoesEncode := by
  intro s peer pwd pending resp hkeyed hpeer hwalsh hcross hstate
  have hback := decoded_encoded_block hwalsh hcross hstate (blockOperand s)
  exact ⟨_, _, s.cascade.withRegs _, peer.withRegs _, exec_enc_keyed hkeyed,
    exec_dec_of_decoded hpeer hback pwd pending resp⟩

/-- Settles O28: cascades started the same way are in lockstep, and no block command writes a seed. -/
theorem freshlyKeyedInstancesRoundTrip : Obligations.FreshlyKeyedInstancesRoundTrip := by
  intro cfg pwd blocks hacc
  obtain ⟨p, hopen⟩ := Option.isSome_iff_exists.mp ((openKeySchedule_isSome cfg pwd).mpr hacc)
  have hrekey := exec_rekey_accepted (s := { State.powerOn cfg with ports := ⟨0, 0, pwd⟩ }) hopen
  obtain ⟨outputs, a, b, henc, hdec, hlock, ha, hb⟩ := exists_roundTrip cfg blocks
    (a := (State.committed { State.powerOn cfg with ports := ⟨0, 0, pwd⟩ } p).rewound.cascade) rfl (Lockstep.refl _)
  obtain ⟨pe, ve, hencRun⟩ := henc _ _ _
  obtain ⟨pd, vd, hdecRun⟩ := hdec _ _ _
  refine ⟨_, _, _, _, outputs, hrekey, exec_reset _, hencRun, hdecRun, ?_⟩
  exact congrArg (fun c : Cascade cfg.n => State.mk cfg c pe [] ve)
    (mapRegs_eraseTransients_eq_of_lockstep hlock ha hb)

end Sys2Proof.Proofs
end

section
/-! SUPPORT. ENC routes bits (spec/43_block_commands.md R126): the masks and the keystreams flip bits where they stand,
and Interleave and CrossPermute move each bit to a place of its own. -/

namespace Sys2Proof.Machine

open Sys2Proof.Safety

/-- Block `b` with bit `j` flipped. -/
def flipBit (b : Block) (j : Fin 128) : Block := blockOfBits (blockBits b ^^^ BitVec.twoPow 128 j)

theorem blockBits_flipBit (b : Block) (j : Fin 128) :
    blockBits (flipBit b j) = blockBits b ^^^ BitVec.twoPow 128 j :=
  blockBits_blockOfBits _

theorem flipBit_getLsbD (b : Block) (j k : Fin 128) :
    (blockBits (flipBit b j)).getLsbD k = ((blockBits b).getLsbD k ^^ decide (j = k)) := by
  simp [blockBits_flipBit, Fin.ext_iff, eq_comm]

/-- `f` sends every flip of one input bit to a flip of one output bit, at a position that only the input position
determines. -/
def RoutesBits (f : Block → Block) : Prop :=
  ∃ σ : Equiv.Perm (Fin 128), ∀ b j, f (flipBit b j) = flipBit (f b) (σ j)

theorem RoutesBits.id : RoutesBits fun b => b := ⟨1, fun _ _ => rfl⟩

theorem RoutesBits.comp {f g : Block → Block} (hg : RoutesBits g) (hf : RoutesBits f) :
    RoutesBits fun b => g (f b) := by
  obtain ⟨τ, hτ⟩ := hg
  obtain ⟨σ, hσ⟩ := hf
  exact ⟨τ * σ, fun b j => (congrArg g (hσ b j)).trans (hτ _ _)⟩

/-- The exclusive OR with a mask flips bits where they stand. -/
theorem RoutesBits.blockXor (m : Block) : RoutesBits fun b => blockXor b m := by
  refine ⟨1, fun b j => block_ext_bits fun k => ?_⟩
  simp only [flipBit_getLsbD, blockBits_xor, BitVec.getLsbD_xor, Equiv.Perm.one_apply, Bool.xor_right_comm]

/-- A function that moves bit `j` to position `σ j`, for every `j`, routes bits. -/
theorem RoutesBits.of_getLsbD {f : Block → Block} (σ : Equiv.Perm (Fin 128))
    (h : ∀ (b : Block) (j : Fin 128), (blockBits (f b)).getLsbD (σ j) = (blockBits b).getLsbD j) : RoutesBits f := by
  refine ⟨σ, fun b j => block_ext_bits fun k => ?_⟩
  obtain ⟨i, rfl⟩ := σ.surjective k
  simp only [flipBit_getLsbD, h, σ.injective.eq_iff]

theorem RoutesBits.interleave (cfg : Config) : RoutesBits (interleave cfg) :=
  .of_getLsbD (ilvEquiv cfg) (interleave_getLsbD cfg)

/-- Bit `i` of window `l`, by its number in the block (R101). -/
def windowBit : Fin 4 × Fin 32 ≃ Fin 128 := finProdFinEquiv

theorem getLsbD_windowBit (b : Block) (l : Fin 4) (i : Fin 32) :
    (blockBits b).getLsbD (windowBit (l, i)) = (window b l).getLsbD i := by
  rw [window_getLsbD b l i.isLt, Nat.add_comm]
  rfl

/-- A function that permutes the windows of a block routes bits. -/
theorem RoutesBits.of_window {f : Block → Block} (π : Equiv.Perm (Fin 4))
    (h : ∀ b l, window (f b) (π l) = window b l) : RoutesBits f := by
  refine .of_getLsbD (windowBit.permCongr (π.prodCongr (.refl _))) fun b j => ?_
  obtain ⟨⟨l, i⟩, rfl⟩ := windowBit.surjective j
  simp only [Equiv.permCongr_apply, Equiv.symm_apply_apply, Equiv.prodCongr_apply, Prod.map_apply, Equiv.refl_apply,
    getLsbD_windowBit, h]

/-- Each row of the CrossPermute table permutes the four windows (R105). -/
theorem RoutesBits.crossPermute (op : BitVec 2) : RoutesBits (crossPermute op) := by
  obtain rfl | rfl | rfl | rfl := crossCode_cases op
  · refine .of_window (Equiv.swap 0 3) fun b l => ?_
    rw [crossPermute_zero]
    fin_cases l <;> simp [window, Equiv.swap_apply_def]
  · refine .of_window (Equiv.swap 1 2) fun b l => ?_
    rw [crossPermute_one]
    fin_cases l <;> simp [window, Equiv.swap_apply_def]
  · refine .of_window (Equiv.swap 0 1 * Equiv.swap 2 3) fun b l => ?_
    rw [crossPermute_two]
    fin_cases l <;> simp [window, Equiv.swap_apply_def]
  · refine .of_window Fin.revPerm fun b l => ?_
    rw [crossPermute_three]
    fin_cases l <;> simp [window]

theorem RoutesBits.encodeInput {n : Nat} (c : Cascade n) (m : Nat) (h : m < n) :
    RoutesBits fun b => encodeInput c b m h := by
  induction m with
  | zero => exact .id
  | succ m ih => exact (RoutesBits.crossPermute _).comp ((RoutesBits.blockXor _).comp (ih (by omega)))

/-- The data steps of ENC route bits: mask, Interleave, and ring after ring. -/
theorem RoutesBits.encoded (cfg : Config) (c : Cascade cfg.n) : RoutesBits fun b => (encoded cfg c b).1 := by
  simp only [encoded_block]
  exact ((RoutesBits.blockXor _).comp (RoutesBits.encodeInput c _ _)).comp
    ((RoutesBits.interleave cfg).comp (RoutesBits.blockXor _))

end Sys2Proof.Machine
end

section
/-! PROOF. One input bit, one output bit (family 43_block_commands). -/

namespace Sys2Proof.Proofs

open Sys2Proof.Machine Sys2Proof.Safety

/-- Settles O29: each part of ENC's data path sends the flip of one bit on to one bit. -/
theorem oneInputBitFlipsOneOutputBit : Obligations.OneInputBitFlipsOneOutputBit := by
  intro s hkeyed
  obtain ⟨σ, hσ⟩ := RoutesBits.encoded s.cfg s.cascade
  refine ⟨σ, fun b j => ⟨_, _, _, _, runBlock_enc_keyed hkeyed _ _ _ b, runBlock_enc_keyed hkeyed _ _ _ _, ?_⟩⟩
  exact (congrArg blockBits (hσ b j)).trans (blockBits_flipBit _ _)

end Sys2Proof.Proofs
end

section
/-! SUPPORT. The whole of a RESET, and the block commands between two RESETs (spec/44_key_schedule.md R138,
spec/70_reset_and_hazards.md R197). -/

namespace Sys2Proof.Machine

open Sys2Proof.Safety

theorem rewindStates_rewindStates {n : Nat} (rf : RegFile n) : rewindStates (rewindStates rf) = rewindStates rf :=
  regFile_ext fun g => by simp only [rewindStates_get]

theorem State.rewound_rewound (s : State) : s.rewound.rewound = s.rewound :=
  congrArg (fun rf => (s.withRegs rf).answer 0) (rewindStates_rewindStates s.cascade.regs)

/-- A keyed ENC or DEC writes the working state of the registers only, whatever the ports, the command stream and the
response; it leaves the stream alone. -/
theorem runBlock_keyed {cfg : Config} {c : Cascade cfg.n} (hk : c.keyed = true) (e : Bool) (b : Block) (ports : Ports)
    (pending : List Command) (resp : Option Response) :
    ∃ rf q v x, SameButWorking c (c.withRegs rf) ∧
      runBlock (if e then .enc else .dec) ⟨cfg, c, ports, pending, resp⟩ b =
        some (⟨cfg, c.withRegs rf, q, pending, v⟩, x) := by
  cases e with
  | true => exact ⟨_, _, _, _, reg_encoded_eraseWorking cfg c b, runBlock_enc_keyed hk ports pending resp b⟩
  | false => exact ⟨_, _, _, _, reg_decoded_eraseWorking cfg c b, runBlock_dec_of_decoded hk rfl ports pending resp⟩

/-- Any mix of ENC and DEC on a keyed cascade writes the working state of the registers only. -/
theorem runMixed_keyed {cfg : Config} (commands : List (Bool × Block)) {c : Cascade cfg.n} (hk : c.keyed = true)
    (ports : Ports) (pending : List Command) (resp : Option Response) :
    ∃ rf q v, SameButWorking c (c.withRegs rf) ∧
      runMixed ⟨cfg, c, ports, pending, resp⟩ commands = some ⟨cfg, c.withRegs rf, q, pending, v⟩ := by
  induction commands generalizing c ports resp with
  | nil => exact ⟨c.regs, ports, resp, fun _ => rfl, rfl⟩
  | cons command rest ih =>
    obtain ⟨e, b⟩ := command
    obtain ⟨rf, q, v, x, hfirst, hrun⟩ := runBlock_keyed hk e b ports pending resp
    obtain ⟨rf', q', v', hrest, hruns⟩ := ih (c := c.withRegs rf) hk q v
    refine ⟨rf', q', v', fun g => (hrest g).trans (hfirst g), ?_⟩
    rw [runMixed, hrun]
    exact hruns

/-- Registers that differ in their working state only are the same but for transients once the one is rewound, if the
other stands at its seed (R197). -/
theorem Reg.eraseTransients_rewound {n : Nat} {r r' : Reg n} (hkept : r'.eraseWorking = r.eraseWorking)
    (hseed : r.state = r.seed) : Reg.eraseTransients { r' with state := r'.seed } = r.eraseTransients := by
  simp only [Reg.eraseWorking, Reg.eraseTransients, Reg.mk.injEq] at hkept ⊢
  obtain ⟨hseed', -, hparameters⟩ := hkept
  exact ⟨hseed', hseed'.trans hseed.symm, hparameters⟩

end Sys2Proof.Machine
end

section
/-! PROOF. RESET (family 44_key_schedule). -/

namespace Sys2Proof.Proofs

open Sys2Proof.Machine Sys2Proof.Safety

/-- Settles O15: RESET is the rewind of every state, and a rewound file is rewound already. -/
theorem resetRewindsEveryStateToItsSeed : Obligations.ResetRewindsEveryStateToItsSeed := fun s =>
  ⟨rewindStates s.cascade.regs, exec_reset s,
    (exec_reset s.rewound).trans (congrArg Host.Outcome.next s.rewound_rewound), rewindStates_get _⟩

/-- Settles O32: the block commands write the working state only, whose one live part RESET takes from the seeds. -/
theorem resetReturnsToTheStandardPoint : Obligations.ResetReturnsToTheStandardPoint := by
  intro s commands hkeyed hseeds
  obtain ⟨rf, q, v, hkept, hrun⟩ := runMixed_keyed commands hkeyed s.ports s.pending s.resp
  have hregs : (rewindStates rf).map Reg.eraseTransients = s.cascade.regs.map Reg.eraseTransients :=
    regFile_ext fun g => by
      simp only [reg_map, rewindStates_get]
      exact Reg.eraseTransients_rewound (hkept g) (hseeds g)
  exact ⟨_, _, hrun, exec_reset _, congrArg s.withRegs hregs⟩

end Sys2Proof.Proofs
end

section
/-! SUPPORT. The port along a run of requests (spec/44_key_schedule.md R131 to R134): what each of the core's draw loops
asks for, and RandomPermutation as `permutationOf` of its answers. -/

namespace Sys2Proof.Machine

open Sys2Proof.Safety

/-- The port after it has answered one request. -/
def KsPort.serve (p : KsPort) : KsRequest → KsPort
  | .u64 => (drawU64 p).2
  | .bounded hi => (drawBounded hi p).2

/-- The port after it has answered the requests `qs`, the first one first. -/
def KsPort.after (p : KsPort) (qs : List KsRequest) : KsPort := qs.foldl KsPort.serve p

@[simp] theorem KsPort.after_nil (p : KsPort) : p.after [] = p := rfl

@[simp] theorem KsPort.after_cons (p : KsPort) (q : KsRequest) (qs : List KsRequest) :
    p.after (q :: qs) = (p.serve q).after qs := rfl

theorem KsPort.after_append (p : KsPort) (qs rs : List KsRequest) : p.after (qs ++ rs) = (p.after qs).after rs :=
  List.foldl_append

@[simp] theorem KsPort.after_earlier (p : KsPort) (qs : List KsRequest) :
    (p.after qs).earlier = qs.reverse ++ p.earlier := by
  induction qs generalizing p with
  | nil => rfl
  | cons q qs ih => cases q <;> simp [ih, KsPort.serve]

@[simp] theorem KsPort.after_pwd (p : KsPort) (qs : List KsRequest) : (p.after qs).pwd = p.pwd := by
  induction qs generalizing p with
  | nil => rfl
  | cons q qs ih => exact (ih _).trans (by cases q <;> rfl)

/-- Bounded requests consume one known bounded answer each. -/
theorem KsPort.after_bounded {qs : List KsRequest} (h : .u64 ∉ qs) (p : KsPort) :
    (p.after qs).bounded = p.bounded.drop qs.length := by
  induction qs generalizing p with
  | nil => rfl
  | cons q qs ih =>
    obtain ⟨hq, hqs⟩ := not_or.mp (List.mem_cons.not.mp h)
    cases q with
    | u64 => exact absurd rfl hq
    | bounded hi => simp [ih hqs, KsPort.serve, ← List.drop_one, Nat.add_comm]

theorem KsPort.after_replicate_succ (p : KsPort) (q : KsRequest) (k : Nat) :
    p.after (List.replicate (k + 1) q) = (p.after (List.replicate k q)).serve q := by
  rw [List.replicate_succ', KsPort.after_append]
  rfl

/-- `k` draws that each make the request `q` leave the port after `k` times `q`. -/
theorem drawMany_port {α : Type} {draw : KsPort → α × KsPort} {q : KsRequest} (hd : ∀ p, (draw p).2 = p.serve q)
    (k : Nat) (p : KsPort) : (drawMany draw k p).2 = p.after (List.replicate k q) := by
  induction k with
  | zero => rfl
  | succ k ih => rw [KsPort.after_replicate_succ, ← ih, ← hd]; rfl

/-- Entry `i` of `k` draws is drawn from the port after the `i` requests before it. -/
theorem drawMany_get_after {α : Type} {draw : KsPort → α × KsPort} {q : KsRequest}
    (hd : ∀ p, (draw p).2 = p.serve q) {k i : Nat} (p : KsPort) (h : i < k) :
    (drawMany draw k p).1[i] = (draw (p.after (List.replicate i q))).1 := by
  rw [drawMany_get draw k p i h, drawMany_port hd]

/-- The requests of `m` draws of the permutation loop from a pool of `len` entries (R134). -/
def poolRequests (m len : Nat) : List KsRequest := (List.range m).map fun t => .bounded (len - 1 - t)

theorem permutationRequests_eq (k : Nat) : permutationRequests k = poolRequests (k - 2) k := rfl

theorem poolRequests_succ (m len : Nat) :
    poolRequests (m + 1) (len + 1) = .bounded len :: poolRequests m len := by
  simp only [poolRequests, List.range_succ_eq_map, List.map_cons, List.map_map]
  refine congrArg₂ List.cons rfl (List.map_congr_left fun t _ => ?_)
  exact congrArg KsRequest.bounded (by omega)

/-- A draw from the indices of a pool leaves the pool one entry shorter. -/
theorem length_eraseIdx_cons {α : Type} (x : α) (xs : List α) (r : Fin (xs.length + 1)) :
    ((x :: xs).eraseIdx r).length = xs.length :=
  List.length_eraseIdx_of_lt r.isLt

theorem permuteLoop_port {α : Type} (m : Nat) (pool : List α) (p : KsPort) (h : m ≤ pool.length) :
    (permuteLoop m pool p).2 = p.after (poolRequests m pool.length) := by
  induction m generalizing pool p with
  | zero => rfl
  | succ m ih =>
    cases pool with
    | nil => simp at h
    | cons x xs =>
      rw [permuteLoop, ih _ _ (by simpa [length_eraseIdx_cons] using h), length_eraseIdx_cons, List.length_cons,
        poolRequests_succ]
      rfl

theorem permutationOf_cons {r : Nat} {pool : List Nat} (h : r < pool.length) (draws : List Nat) :
    permutationOf (r :: draws) pool = pool[r] :: permutationOf draws (pool.eraseIdx r) := by
  rw [permutationOf, List.getElem?_eq_getElem h]

/-- The permutation loop takes entries out of the pool as `permutationOf` does with the answers to its requests. -/
theorem permuteLoop_eq_permutationOf {α : Type} (f : α → Nat) (m : Nat) (answer : Nat → Nat) (pool : List α)
    (p : KsPort)
    (h : ∀ t < m, (drawBounded (pool.length - 1 - t) (p.after (poolRequests t pool.length))).1.val = answer t) :
    (permuteLoop m pool p).1.map f = permutationOf ((List.range m).map answer) (pool.map f) := by
  induction m generalizing answer pool p with
  | zero => simp [permuteLoop, permutationOf]
  | succ m ih =>
    rw [List.range_succ_eq_map, List.map_cons, List.map_map]
    cases pool with
    | nil => simp [permuteLoop, permutationOf]
    | cons x xs =>
      have hfirst : (drawBounded xs.length p).1.val = answer 0 := h 0 (by omega)
      rw [← hfirst, permutationOf_cons (by simpa using (drawBounded xs.length p).1.isLt), permuteLoop, List.map_cons,
        ih (answer ∘ Nat.succ), ← List.eraseIdx_map, List.getElem_map]
      · rfl
      intro t ht
      have hlater := h (t + 1) (by omega)
      rw [List.length_cons, poolRequests_succ, KsPort.after_cons] at hlater
      rw [length_eraseIdx_cons, Function.comp_apply, ← hlater]
      exact congrArg (fun hi => (drawBounded hi (KsPort.after _ _)).1.val) (by omega)

end Sys2Proof.Machine
end

section
/-! SUPPORT. The draws of one REKEY as runs of requests (spec/44_key_schedule.md R134, R136), and each draw as the
statements' answer to its own request. -/

namespace Sys2Proof.Machine

open Sys2Proof.Safety

/-- The requests of one REKEY, cut into the runs of steps (a) to (k) (R136). -/
def keyRuns (n : Nat) : List (List KsRequest) :=
  let fives := List.replicate (4 * n) (.bounded 31)
  [List.replicate (4 * n) .u64, List.replicate (n - 1) (.bounded 3), permutationRequests (4 * n),
    permutationRequests (4 * n), permutationRequests (4 * n), fives, fives, fives, fives,
    List.replicate (4 * n) (.bounded 14), [.bounded 127]]

theorem flatten_keyRuns (n : Nat) : (keyRuns n).flatten = keyRequests n := by
  have hfour : 4 * (4 * n) = 4 * n + (4 * n + (4 * n + 4 * n)) := by omega
  simp only [keyRuns, keyRequests, hfour, List.replicate_add, List.flatten_cons, List.flatten_nil, List.append_nil,
    List.append_assoc]

/-- The requests made before run `j`. -/
def requestsBefore (n j : Nat) : List KsRequest := ((keyRuns n).take j).flatten

/-- The port as run `j` finds it. -/
def KsPort.beforeRun (p : KsPort) (n j : Nat) : KsPort := p.after (requestsBefore n j)

theorem requestsBefore_succ {n j : Nat} {run : List KsRequest} (h : (keyRuns n)[j]? = some run) :
    requestsBefore n (j + 1) = requestsBefore n j ++ run := by
  simp [requestsBefore, List.take_add_one, h]

theorem KsPort.beforeRun_succ {p : KsPort} {n j : Nat} {run : List KsRequest} (h : (keyRuns n)[j]? = some run) :
    (p.beforeRun n j).after run = p.beforeRun n (j + 1) := by
  rw [KsPort.beforeRun, KsPort.beforeRun, ← KsPort.after_append, ← requestsBefore_succ h]

/-- The requests made in the course of run `j` are the first ones of the sequence. -/
theorem requestsBefore_append_prefix {n j : Nat} {run part : List KsRequest} (h : (keyRuns n)[j]? = some run)
    (hpart : part <+: run) : requestsBefore n j ++ part <+: keyRequests n := by
  have hall : requestsBefore n (j + 1) <+: (keyRuns n).flatten := (List.take_prefix _ _).flatten
  rw [requestsBefore_succ h, flatten_keyRuns] at hall
  exact ((List.prefix_append_right_inj _).mpr hpart).trans hall

theorem randomPermutation_port (k : Nat) (p : KsPort) :
    (randomPermutation k p).2 = p.after (permutationRequests k) := by
  rw [randomPermutation, permuteLoop_port _ _ _ (by simp), List.length_finRange, permutationRequests_eq]

/-- Every step of the derivation draws from the port as its own run finds it. -/
theorem drawKey_eq (n : Nat) (p : KsPort) :
    drawKey n p =
      (⟨(drawMany drawU64 (4 * n) (p.beforeRun n 0)).1, (drawMany (drawField 2 3) (n - 1) (p.beforeRun n 1)).1,
        (randomPermutation (4 * n) (p.beforeRun n 2)).1, (randomPermutation (4 * n) (p.beforeRun n 3)).1,
        (randomPermutation (4 * n) (p.beforeRun n 4)).1, (drawMany (drawField 5 31) (4 * n) (p.beforeRun n 5)).1,
        (drawMany (drawField 5 31) (4 * n) (p.beforeRun n 6)).1,
        (drawMany (drawField 5 31) (4 * n) (p.beforeRun n 7)).1,
        (drawMany (drawField 5 31) (4 * n) (p.beforeRun n 8)).1,
        (drawMany (drawField 4 14) (4 * n) (p.beforeRun n 9)).1,
        (drawField 7 127 (p.beforeRun n 10)).1⟩, p.beforeRun n 11) := by
  have ha : (drawMany drawU64 (4 * n) p).2 = p.beforeRun n 1 :=
    (drawMany_port (q := .u64) (fun _ => rfl) _ p).trans (KsPort.beforeRun_succ (j := 0) rfl)
  have hfield : ∀ {w hi m j : Nat}, (keyRuns n)[j]? = some (List.replicate m (.bounded hi)) →
      (drawMany (drawField w hi) m (p.beforeRun n j)).2 = p.beforeRun n (j + 1) := fun h =>
    (drawMany_port (fun _ => rfl) _ _).trans (KsPort.beforeRun_succ h)
  have hperm : ∀ {j : Nat}, (keyRuns n)[j]? = some (permutationRequests (4 * n)) →
      (randomPermutation (4 * n) (p.beforeRun n j)).2 = p.beforeRun n (j + 1) := fun h =>
    (randomPermutation_port _ _).trans (KsPort.beforeRun_succ h)
  have hb := hfield (w := 2) (j := 1) rfl
  have hc := hperm (j := 2) rfl
  have hd := hperm (j := 3) rfl
  have he := hperm (j := 4) rfl
  have hf := hfield (w := 5) (j := 5) rfl
  have hg := hfield (w := 5) (j := 6) rfl
  have hh := hfield (w := 5) (j := 7) rfl
  have hi := hfield (w := 5) (j := 8) rfl
  have hj := hfield (w := 4) (j := 9) rfl
  have hk : (drawField 7 127 (p.beforeRun n 10)).2 = p.beforeRun n 11 := KsPort.beforeRun_succ (j := 10) rfl
  simp only [drawKey, ha, hb, hc, hd, he, hf, hg, hh, hi, hj, hk]
  rfl

theorem drawKey_port (n : Nat) (p : KsPort) : (drawKey n p).2 = p.after (keyRequests n) := by
  rw [drawKey_eq, ← flatten_keyRuns]
  rfl

/-! ### The answers -/

/-- The port of a REKEY whose password is accepted with `script` known of its answers, before any request. -/
def KsPort.opened (pwd : Password) (script : KsScript) : KsPort := ⟨pwd, [], script.u64s, script.bounded⟩

theorem openKeySchedule_of_opensWith {cfg : Config} {pwd : Password} {script : KsScript}
    (h : OpensWith cfg pwd script) : openKeySchedule cfg pwd = some (.opened pwd script) := by
  obtain hlisted | ⟨hfree, hacc, rfl⟩ := h
  · simp [openKeySchedule, hlisted, KsPort.opened]
  · simp [openKeySchedule, hfree, hacc, KsPort.opened]

/-- A bounded draw gives the next known answer when it is in range, and the free value otherwise (R132). -/
theorem drawBounded_val (hi : Nat) (p : KsPort) :
    (drawBounded hi p).1.val =
      (p.bounded.head?.filter (· ≤ hi)).getD (Config.ksBounded p.pwd p.earlier hi).val := by
  unfold drawBounded
  cases p.bounded with
  | nil => rfl
  | cons v vs =>
    by_cases h : v ≤ hi
    · simp [Option.filter_some, h, Nat.lt_succ_of_le h]
    · simp [Option.filter_some, h]

theorem boundedAnswer_eq_getD (pwd : Password) (script : KsScript) (n k hi : Nat) :
    boundedAnswer pwd script n k hi = (script.bounded[k]?.filter (· ≤ hi)).getD
      (Config.ksBounded pwd ((keyRequests n).take (4 * n + k)).reverse hi).val := by
  unfold boundedAnswer
  cases script.bounded[k]?.filter (· ≤ hi) <;> rfl

theorem take_keyRequests_eq_replicate (n : Nat) :
    (keyRequests n).take (4 * n) = List.replicate (4 * n) .u64 := by
  simp [keyRequests]

theorem u64_not_mem_drop_keyRequests (n : Nat) : .u64 ∉ (keyRequests n).drop (4 * n) := by
  simp [keyRequests, permutationRequests]

theorem length_permutationRequests (k : Nat) : (permutationRequests k).length = k - 2 := by
  simp [permutationRequests]

/-- The first `4 * n` requests take the 64-bit answers, and each later one the next bounded answer. -/
theorem after_take_keyRequests_bounded (p : KsPort) {n k : Nat} (h : 4 * n + k ≤ (keyRequests n).length) :
    (p.after ((keyRequests n).take (4 * n + k))).bounded = p.bounded.drop k := by
  have hu64 : (p.after (List.replicate (4 * n) .u64)).bounded = p.bounded := by
    rw [← drawMany_port (draw := drawU64) (fun _ => rfl), drawMany_u64_bounded]
  have hlater : .u64 ∉ ((keyRequests n).drop (4 * n)).take k := fun hmem =>
    u64_not_mem_drop_keyRequests n (List.mem_of_mem_take hmem)
  rw [List.take_add, KsPort.after_append, take_keyRequests_eq_replicate, KsPort.after_bounded hlater, hu64,
    List.length_take_of_le (by simpa using Nat.le_sub_of_add_le' h)]

/-- A bounded draw after the first `4 * n + k` requests gives the answer to bounded request `k`. -/
theorem drawBounded_eq_boundedAnswer (pwd : Password) (script : KsScript) {n k : Nat} {qs : List KsRequest}
    (hqs : qs <+: keyRequests n) (hlen : qs.length = 4 * n + k) (hi : Nat) :
    (drawBounded hi ((KsPort.opened pwd script).after qs)).1.val = boundedAnswer pwd script n k hi := by
  obtain rfl : qs = (keyRequests n).take (4 * n + k) := hlen ▸ List.prefix_iff_eq_take.mp hqs
  have hbound : 4 * n + k ≤ (keyRequests n).length := hlen ▸ hqs.length_le
  rw [drawBounded_val, boundedAnswer_eq_getD, after_take_keyRequests_bounded _ hbound, List.head?_drop]
  simp [KsPort.opened]

/-- Entry `i` of a run of fields, the run's first request being bounded request `k`. -/
theorem drawMany_beforeRun_get (pwd : Password) (script : KsScript) {n j k w hi m i : Nat}
    (hrun : (keyRuns n)[j]? = some (List.replicate m (.bounded hi)))
    (hlen : (requestsBefore n j).length = 4 * n + k) (h : i < m) :
    (drawMany (drawField w hi) m ((KsPort.opened pwd script).beforeRun n j)).1[i] =
      BitVec.ofNat w (boundedAnswer pwd script n (k + i) hi) := by
  have hprefix : requestsBefore n j ++ List.replicate i (.bounded hi) <+: keyRequests n :=
    requestsBefore_append_prefix hrun
      ⟨List.replicate (m - i) (.bounded hi), by simp [show i + (m - i) = m by omega]⟩
  rw [drawMany_get_after (draw := drawField w hi) (q := .bounded hi) (fun _ => rfl), KsPort.beforeRun,
    ← KsPort.after_append]
  exact congrArg (BitVec.ofNat w)
    (drawBounded_eq_boundedAnswer pwd script hprefix (by simp [hlen, Nat.add_assoc]) hi)

/-- The number of bounded requests of steps (b) to (e), which is the number of the first one of step (f) (R136). -/
def firstField (n : Nat) : Nat := n - 1 + 3 * (4 * n - 2)

/-- How many requests there are before each run but the first: `4 * n` 64-bit ones, and so many bounded ones. -/
theorem length_requestsBefore (n : Nat) :
    (requestsBefore n 1).length = 4 * n + 0 ∧
    (requestsBefore n 2).length = 4 * n + (n - 1) ∧
    (requestsBefore n 3).length = 4 * n + (n - 1 + (4 * n - 2)) ∧
    (requestsBefore n 4).length = 4 * n + (n - 1 + 2 * (4 * n - 2)) ∧
    (requestsBefore n 5).length = 4 * n + firstField n ∧
    (requestsBefore n 6).length = 4 * n + (firstField n + 4 * n) ∧
    (requestsBefore n 7).length = 4 * n + (firstField n + 2 * (4 * n)) ∧
    (requestsBefore n 8).length = 4 * n + (firstField n + 3 * (4 * n)) ∧
    (requestsBefore n 9).length = 4 * n + (firstField n + 4 * (4 * n)) ∧
    (requestsBefore n 10).length = 4 * n + (firstField n + 5 * (4 * n)) := by
  simp only [requestsBefore, keyRuns, List.take_succ_cons, List.take_zero, List.flatten_cons, List.flatten_nil,
    List.length_append, List.length_nil, List.length_replicate, length_permutationRequests, firstField,
    true_and]
  omega

theorem poolRequests_prefix {t m : Nat} (h : t ≤ m) (len : Nat) : poolRequests t len <+: poolRequests m len :=
  List.IsPrefix.map _ (by simpa [h] using List.take_prefix t (List.range m))

/-- A RandomPermutation, its first request being bounded request `k`. -/
theorem randomPermutation_beforeRun (pwd : Password) (script : KsScript) {n j k m : Nat}
    (hrun : (keyRuns n)[j]? = some (permutationRequests m)) (hlen : (requestsBefore n j).length = 4 * n + k) :
    (randomPermutation m ((KsPort.opened pwd script).beforeRun n j)).1.toList.map Fin.val =
      permutationOf ((List.range (m - 2)).map fun t => boundedAnswer pwd script n (k + t) (m - 1 - t))
        (List.range m) := by
  have hdraws := permuteLoop_eq_permutationOf Fin.val (m - 2) (fun t => boundedAnswer pwd script n (k + t) (m - 1 - t))
    (List.finRange m) ((KsPort.opened pwd script).beforeRun n j) ?_
  · simpa [randomPermutation, Vector.toList_mk] using hdraws
  intro t ht
  have hprefix : requestsBefore n j ++ poolRequests t m <+: keyRequests n :=
    requestsBefore_append_prefix hrun (poolRequests_prefix ht.le m)
  rw [List.length_finRange, KsPort.beforeRun, ← KsPort.after_append]
  exact drawBounded_eq_boundedAnswer pwd script hprefix (by simp [hlen, poolRequests, Nat.add_assoc]) _

theorem drawMany_u64_opened_get (pwd : Password) (script : KsScript) {m i : Nat} (h : i < m) :
    (drawMany drawU64 m (.opened pwd script)).1[i] = u64Answer pwd script i := by
  have hpwd : (drawMany drawU64 i (KsPort.opened pwd script)).2.pwd = pwd := by
    rw [drawMany_port (q := .u64) (fun _ => rfl), KsPort.after_pwd]; rfl
  rw [drawMany_get _ _ _ _ h, drawU64, drawMany_u64s, drawMany_earlier (q := .u64) (fun _ => rfl), hpwd,
    List.head?_drop]
  simp [KsPort.opened, u64Answer]

/-- An answer is in the range of its request (R132). -/
theorem boundedAnswer_le (pwd : Password) (script : KsScript) (n k hi : Nat) :
    boundedAnswer pwd script n k hi ≤ hi := by
  unfold boundedAnswer
  cases h : script.bounded[k]?.filter (· ≤ hi) with
  | none => exact Nat.le_of_lt_succ (Config.ksBounded ..).isLt
  | some v => simpa using (Option.filter_eq_some_iff.mp h).2

theorem u64Answer_of_known {pwd : Password} {script : KsScript} {g : Nat} {v : U64} (h : script.u64s[g]? = some v) :
    u64Answer pwd script g = v := by
  rw [u64Answer, h, Option.getD_some]

theorem boundedAnswer_of_known {pwd : Password} {script : KsScript} {n k v hi : Nat}
    (h : script.bounded[k]? = some v) (hv : v ≤ hi) : boundedAnswer pwd script n k hi = v := by
  simp [boundedAnswer_eq_getD, h, Option.filter_some, hv]

/-- A run of known answers, each in the range of its request, is the run of the answers. -/
theorem eq_map_boundedAnswer_of_known (pwd : Password) {script : KsScript} (n : Nat) {k m : Nat} {bound : Nat → Nat}
    {draws : List Nat} (hdraws : draws = (script.bounded.drop k).take m) (hlen : draws.length = m)
    (hrange : ∀ t r, draws[t]? = some r → r ≤ bound t) :
    draws = (List.range m).map fun t => boundedAnswer pwd script n (k + t) (bound t) := by
  refine List.ext_getElem (by simpa using hlen) fun t ht _ => ?_
  have hdraw : draws[t]? = some draws[t] := List.getElem?_eq_getElem ht
  have hknown : script.bounded[k + t]? = some draws[t] := by
    rw [← hdraw, hdraws, List.getElem?_take_of_lt (hlen ▸ ht), List.getElem?_drop]
  simpa using (boundedAnswer_of_known hknown (hrange t _ hdraw)).symm

/-- The permutation of the answers to the requests of one `RandomPermutation(4 * n)`, the first being bounded request
`k` of the REKEY. -/
def permutationAnswer (pwd : Password) (script : KsScript) (n k : Nat) : List Nat :=
  permutationOf ((List.range (4 * n - 2)).map fun t => boundedAnswer pwd script n (k + t) (4 * n - 1 - t))
    (List.range (4 * n))

/-- Every field of the key material is the answer to its own request of steps (a) to (k) (R136). -/
structure KeyMaterial.Answers {n : Nat} (pwd : Password) (script : KsScript) (m : KeyMaterial n) : Prop where
  seed : ∀ g : RegIndex n, m.seed[g] = u64Answer pwd script g
  cross : ∀ i : Fin (n - 1), m.cross[i] = BitVec.ofNat 2 (boundedAnswer pwd script n i 3)
  hop : m.hop.toList.map Fin.val = permutationAnswer pwd script n (n - 1)
  upLink : m.upLink.toList.map Fin.val = permutationAnswer pwd script n (n - 1 + (4 * n - 2))
  downLink : m.downLink.toList.map Fin.val = permutationAnswer pwd script n (n - 1 + 2 * (4 * n - 2))
  posUp : ∀ g : RegIndex n,
    m.posUp[g] = BitVec.ofNat 5 (boundedAnswer pwd script n (firstField n + g) 31)
  posDown : ∀ g : RegIndex n,
    m.posDown[g] = BitVec.ofNat 5 (boundedAnswer pwd script n (firstField n + 4 * n + g) 31)
  winA : ∀ g : RegIndex n,
    m.winA[g] = BitVec.ofNat 5 (boundedAnswer pwd script n (firstField n + 2 * (4 * n) + g) 31)
  winB : ∀ g : RegIndex n,
    m.winB[g] = BitVec.ofNat 5 (boundedAnswer pwd script n (firstField n + 3 * (4 * n) + g) 31)
  leap : ∀ g : RegIndex n,
    m.leap[g] = BitVec.ofNat 4 (boundedAnswer pwd script n (firstField n + 4 * (4 * n) + g) 14)
  walshDraw : m.walshDraw = BitVec.ofNat 7 (boundedAnswer pwd script n (firstField n + 5 * (4 * n)) 127)

theorem drawKey_answers (n : Nat) (pwd : Password) (script : KsScript) :
    (drawKey n (.opened pwd script)).1.Answers pwd script := by
  obtain ⟨hcross, hhop, hup, hdown, hposUp, hposDown, hwinA, hwinB, hleap, hwalsh⟩ := length_requestsBefore n
  rw [drawKey_eq]
  exact
    { seed := fun g => drawMany_u64_opened_get pwd script g.isLt
      cross := fun i => (drawMany_beforeRun_get pwd script rfl hcross i.isLt).trans (by rw [Nat.zero_add])
      hop := randomPermutation_beforeRun pwd script rfl hhop
      upLink := randomPermutation_beforeRun pwd script rfl hup
      downLink := randomPermutation_beforeRun pwd script rfl hdown
      posUp := fun g => drawMany_beforeRun_get pwd script rfl hposUp g.isLt
      posDown := fun g => drawMany_beforeRun_get pwd script rfl hposDown g.isLt
      winA := fun g => drawMany_beforeRun_get pwd script rfl hwinA g.isLt
      winB := fun g => drawMany_beforeRun_get pwd script rfl hwinB g.isLt
      leap := fun g => drawMany_beforeRun_get pwd script rfl hleap g.isLt
      walshDraw := congrArg (BitVec.ofNat 7) (drawBounded_eq_boundedAnswer pwd script
        ((List.prefix_append _ _).trans (requestsBefore_append_prefix (j := 10) rfl List.prefix_rfl)) hwalsh 127) }

end Sys2Proof.Machine
end

section
/-! SUPPORT. What a commit makes of the drawn key (spec/44_key_schedule.md R136, R137), and the last two outputs of
RandomPermutation (R135). -/

namespace Sys2Proof.Machine

open Sys2Proof.Safety

variable {n : Nat}

/-- A field that the commit takes from the drawn table `v` lists that table. -/
theorem toList_map_commitKey {α : Type} {k : KeyMaterial n} {c : Cascade n} {f : Reg n → α} {v : Vector α (4 * n)}
    (h : ∀ g : RegIndex n, f (commitReg k c.regs g) = v[g]) : (commitKey k c).regs.toList.map f = v.toList := by
  rw [toList_map_eq_ofFn]
  apply List.ext_getElem
  · simp
  · intro i hi _
    simpa using h ⟨i, by simpa using hi⟩

theorem commitKey_upLinks (k : KeyMaterial n) (c : Cascade n) :
    (commitKey k c).regs.toList.map (·.upLink) = k.upLink.toList :=
  toList_map_commitKey fun _ => rfl

theorem commitKey_downLinks (k : KeyMaterial n) (c : Cascade n) :
    (commitKey k c).regs.toList.map (·.downLink) = k.downLink.toList :=
  toList_map_commitKey fun _ => rfl

theorem commitKey_upLinks_val (k : KeyMaterial n) (c : Cascade n) :
    (commitKey k c).regs.toList.map (·.upLink.val) = k.upLink.toList.map Fin.val := by
  rw [← commitKey_upLinks k c, List.map_map]
  rfl

theorem commitKey_downLinks_val (k : KeyMaterial n) (c : Cascade n) :
    (commitKey k c).regs.toList.map (·.downLink.val) = k.downLink.toList.map Fin.val := by
  rw [← commitKey_downLinks k c, List.map_map]
  rfl

/-- A draw in the 7 bits of the Walsh index is stored as it is, but for 0 (R136). -/
theorem commitKey_walshIndex_of_draw {k : KeyMaterial n} {v : Nat} (hv : v ≤ 127)
    (hk : k.walshDraw = BitVec.ofNat 7 v) (c : Cascade n) :
    (commitKey k c).walshIndex = if v = 0 then 1 else BitVec.ofNat 7 v := by
  have hzero : BitVec.ofNat 7 v = 0 ↔ v = 0 := by
    rw [← BitVec.toNat_inj, BitVec.toNat_ofNat, Nat.mod_eq_of_lt (by omega)]
    rfl
  simp only [commitKey, hk, hzero]

/-- What a commit leaves is fixed by the drawn key, but for the transients (R136). -/
theorem commitKey_eraseTransients_congr (k : KeyMaterial n) (c d : Cascade n) :
    (commitKey k c).mapRegs Reg.eraseTransients = (commitKey k d).mapRegs Reg.eraseTransients := by
  have hregs : (commitKey k c).regs.map Reg.eraseTransients = (commitKey k d).regs.map Reg.eraseTransients :=
    regFile_ext fun g => by
      simp only [reg_map, reg_commitKey]
      rfl
  exact congrArg (fun rf => { commitKey k c with regs := rf }) hregs

/-- Every leap of a drawn key is within its draw's bound. -/
theorem drawKey_leap_le (n : Nat) (p : KsPort) (g : RegIndex n) : (drawKey n p).1.leap[g].toNat ≤ 14 := by
  rw [drawKey_eq]
  exact (congrArg BitVec.toNat (drawMany_get _ _ _ _ g.isLt)).trans_le (drawField_le 4 14 _)

/-- With two entries fewer drawn than the pool holds, the two that are left come out last, in reverse pool order. -/
theorem permuteLoop_descending_tail {α : Type} [LT α] (m : Nat) {pool : List α} (p : KsPort)
    (hlen : pool.length = m + 2) (hsorted : pool.Pairwise (· < ·)) :
    ∃ front a b, (permuteLoop m pool p).1 = front ++ [b, a] ∧ front.length = m ∧ a < b := by
  induction m generalizing pool p with
  | zero =>
    obtain ⟨a, b, rfl⟩ := List.length_eq_two.mp hlen
    exact ⟨[], a, b, rfl, rfl, List.rel_of_pairwise_cons hsorted (by simp)⟩
  | succ m ih =>
    cases pool with
    | nil => simp at hlen
    | cons x xs =>
      obtain ⟨front, a, b, hrest, hfront, hlt⟩ := ih (drawBounded xs.length p).2
        (by simpa [length_eraseIdx_cons x xs (drawBounded xs.length p).1] using hlen)
        (hsorted.sublist (List.eraseIdx_sublist (x :: xs) (drawBounded xs.length p).1))
      exact ⟨(x :: xs).get (drawBounded xs.length p).1 :: front, a, b, by rw [permuteLoop, hrest]; rfl,
        congrArg Nat.succ hfront, hlt⟩

end Sys2Proof.Machine
end

section
/-! PROOF. RandomPermutation, the requests of REKEY and the key it leaves (family 44_key_schedule). -/

namespace Sys2Proof.Proofs

open Sys2Proof.Machine Sys2Proof.Safety

/-- Settles O20: the pool entries come out once each, and the last two of the ascending pool in reverse. -/
theorem randomPermutationIsABijectionWithDescendingTail :
    Obligations.RandomPermutationIsABijectionWithDescendingTail := by
  intro k p hk
  refine ⟨randomPermutation_perm k p, ?_⟩
  obtain ⟨m, rfl⟩ := Nat.exists_eq_add_of_le' hk
  obtain ⟨front, a, b, hout, hfront, hlt⟩ :=
    permuteLoop_descending_tail m (pool := List.finRange (m + 2)) p List.length_finRange (List.pairwise_lt_finRange _)
  simpa [randomPermutation, hout, List.getElem_append_right, hfront] using hlt

/-- Settles O19: the port after the draws has answered the runs of the sequence one after the other. -/
theorem rekeyIssuesTheSpecifiedRequests : Obligations.RekeyIssuesTheSpecifiedRequests := by
  intro n p hn
  refine ⟨by rw [drawKey_port]; simp, ?_, take_keyRequests_eq_replicate n, u64_not_mem_drop_keyRequests n⟩
  simp only [keyRequests, List.length_append, List.length_replicate, length_permutationRequests, List.length_singleton]
  omega

/-- Settles O17: the committed tables are the drawn permutations, the fields keep the bounds of their draws. -/
theorem acceptedRekeyEstablishesTheKey : Obligations.AcceptedRekeyEstablishesTheKey := by
  intro s hacc
  obtain ⟨p, hopen⟩ := Option.isSome_iff_exists.mp ((openKeySchedule_isSome s.cfg s.ports.pwd).mpr hacc)
  refine ⟨_, exec_rekey_accepted hopen, rfl, ?hop, ?up, ?down, ?walshPos, Nat.le_of_lt_succ (BitVec.isLt _),
    fun x _ => Nat.le_of_lt_succ x.isLt, fun g => ?reg⟩
  case hop =>
    rw [commitKey_hop_toNat s.cfg.n_le, ← List.map_coe_finRange_eq_range]
    exact (randomPermutation_perm _ _).map _
  case up =>
    rw [commitKey_upLinks]
    exact randomPermutation_perm _ _
  case down =>
    rw [commitKey_downLinks]
    exact randomPermutation_perm _ _
  case walshPos => exact Nat.pos_of_ne_zero fun h => commitKey_walshIndex_ne_zero _ _ (BitVec.eq_of_toNat_eq h)
  case reg =>
    rw [reg_commitKey]
    exact ⟨rfl, drawKey_leap_le _ _ g, Nat.le_of_lt_succ (BitVec.isLt _), Nat.le_of_lt_succ (BitVec.isLt _),
      Nat.le_of_lt_succ (BitVec.isLt _), Nat.le_of_lt_succ (BitVec.isLt _), rfl, rfl⟩

/-- Settles O21: both states open the same port, whose one drawn key both commit. -/
theorem rekeyForgetsTheOldKey : Obligations.RekeyForgetsTheOldKey := by
  intro s old hacc
  obtain ⟨p, hopen⟩ := Option.isSome_iff_exists.mp ((openKeySchedule_isSome s.cfg s.ports.pwd).mpr hacc)
  refine ⟨_, _, exec_rekey_accepted hopen, exec_rekey_accepted (s := { s with cascade := old }) hopen, ?_⟩
  exact congrArg (fun c => { s with cascade := c }.answer 0) (commitKey_eraseTransients_congr _ s.cascade old)

/-- Settles O46: the drawn key holds the answers, and the commit stores it. -/
theorem rekeyStoresTheAnswerToEachRequest : Obligations.RekeyStoresTheAnswerToEachRequest := by
  intro s script hopen n K answer permutation f
  have hkey := drawKey_answers n s.ports.pwd script
  refine ⟨_, exec_rekey_accepted (openKeySchedule_of_opensWith hopen), hkey.cross, ?hop, ?up, ?down,
    commitKey_walshIndex_of_draw (boundedAnswer_le ..) hkey.walshDraw _, fun g => ?reg⟩
  case hop => exact (commitKey_hop_toNat s.cfg.n_le _ _).trans hkey.hop
  case up => exact (commitKey_upLinks_val _ _).trans hkey.upLink
  case down => exact (commitKey_downLinks_val _ _).trans hkey.downLink
  case reg =>
    rw [reg_commitKey]
    exact ⟨hkey.seed g, hkey.seed g, hkey.posUp g, hkey.posDown g, hkey.winA g, hkey.winB g, hkey.leap g⟩

/-- Settles O18: a known answer in range is the answer to its request. -/
theorem rekeyConsumesTheDrawsInOrder : Obligations.RekeyConsumesTheDrawsInOrder := by
  intro s script hlisted n K permutation known f
  obtain ⟨c, hexec, hcross, hhop, hup, hdown, hwalsh, hregs⟩ :=
    rekeyStoresTheAnswerToEachRequest s script (.inl hlisted)
  have hpermutation : ∀ {offset : Nat} {result : List Nat},
      result = permutationAnswer s.ports.pwd script n offset → permutation offset result := by
    rintro offset _ rfl draws hdraws hlen hrange
    rw [eq_map_boundedAnswer_of_known s.ports.pwd n hdraws hlen hrange]
    rfl
  have hfield : ∀ {w k v hi : Nat} {x : BitVec w}, x = BitVec.ofNat w (boundedAnswer s.ports.pwd script n k hi) →
      known[k]? = some v → v ≤ hi → x = BitVec.ofNat w v := fun hx hv hle =>
    hx.trans (congrArg (BitVec.ofNat _) (boundedAnswer_of_known hv hle))
  refine ⟨c, hexec, fun i _ => hfield (hcross i), hpermutation hhop, hpermutation hup, hpermutation hdown, ?walsh,
    fun g => ?reg⟩
  case walsh =>
    intro v hv hle
    rw [hwalsh, boundedAnswer_of_known hv hle]
  case reg =>
    obtain ⟨hseed, hstate, hposUp, hposDown, hwinA, hwinB, hleap⟩ := hregs g
    refine ⟨fun v hv => ?_, fun _ => hfield hposUp, fun _ => hfield hposDown, fun _ => hfield hwinA,
      fun _ => hfield hwinB, fun _ => hfield hleap⟩
    have hanswer := u64Answer_of_known (pwd := s.ports.pwd) hv
    exact ⟨hseed.trans hanswer, hstate.trans hanswer⟩

end Sys2Proof.Proofs
end

section
/-! SUPPORT. The GETs and the SETs as commands: the whole state a command leaves, from the shared operation that is its
meaning (spec/45_accessors.md R151), and the operands of the parameter SETs as truncations of `DIN0`
(spec/30_encoding.md R66). -/

namespace Sys2Proof.Machine

theorem exec_get_inRange {s : State} {i : Instr} {idx : Nat} {f : Reg s.cfg.n → U64}
    (hget : exec i s = .next (readField s idx f)) (h : idx < 4 * s.cfg.n) :
    exec i s = .next { s with resp := some ⟨0, f (reg s.cascade.regs ⟨idx, h⟩), 0⟩ } :=
  hget.trans (congrArg _ (readField_inRange s idx f h))

theorem exec_get_outOfRange {s : State} {i : Instr} {idx : Nat} {f : Reg s.cfg.n → U64}
    (hget : exec i s = .next (readField s idx f)) (h : 4 * s.cfg.n ≤ idx) :
    exec i s = .next { s with resp := some ⟨0, 0, 0⟩ } :=
  hget.trans (congrArg _ (readField_outOfRange s idx f h.not_gt))

/-- A GET whose field is `k` bits wide answers the number the field holds. -/
theorem exec_get_inRange_setWidth {s : State} {i : Instr} {idx k : Nat} {field : Reg s.cfg.n → BitVec k}
    (hget : exec i s = .next (readField s idx fun r => (field r).setWidth 64)) (h : idx < 4 * s.cfg.n) :
    exec i s =
      .next { s with resp := some ⟨0, BitVec.ofNat 64 (field (reg s.cascade.regs ⟨idx, h⟩)).toNat, 0⟩ } := by
  rw [BitVec.ofNat_toNat]
  exact exec_get_inRange hget h

theorem exec_set {s : State} {i : Instr} {idx : Nat} {f : Reg s.cfg.n → Reg s.cfg.n}
    (hset : exec i s = .next (writeField s idx f)) :
    ∃ rf : RegFile s.cfg.n,
      exec i s = .next { s with cascade := { s.cascade with regs := rf }, resp := some ⟨0, 0, 0⟩ } ∧
      ∀ g : RegIndex s.cfg.n, reg rf g = if g.val = idx then f (reg s.cascade.regs g) else reg s.cascade.regs g := by
  obtain ⟨rf, hwrite, hregs⟩ := writeField_spec s idx f
  exact ⟨rf, hset.trans (congrArg _ hwrite), hregs⟩

theorem positionOperand_eq_ofNat (s : State) : positionOperand s = BitVec.ofNat 5 s.ports.din0.toNat := rfl

theorem leapOperand_eq_ofNat (s : State) : leapOperand s = BitVec.ofNat 4 s.ports.din0.toNat := rfl

end Sys2Proof.Machine
end

section
/-! PROOF. NUMSEEDS and the accessors (family 45_accessors). -/

namespace Sys2Proof.Proofs

open Sys2Proof.Machine

/-- Settles O12: each SET writes one field of the register its index names. -/
theorem setSeedAndSetStateWriteOneField : Obligations.SetSeedAndSetStateWriteOneField := by
  intro s idx
  obtain ⟨seeds, hseed, hseeds⟩ := exec_set (s := s) (i := .setSeed idx) rfl
  obtain ⟨states, hstate, hstates⟩ := exec_set (s := s) (i := .setState idx) rfl
  exact ⟨seeds, states, hseed, hstate, fun g => ⟨hseeds g, hstates g⟩⟩

/-- Settles O13: each SET writes one field of the register its index names, with the operand cut to the field. -/
theorem setParametersWriteOneTruncatedField : Obligations.SetParametersWriteOneTruncatedField := by
  intro s idx
  obtain ⟨pu, hposUp, hpu⟩ := exec_set (s := s) (i := .setPosUp idx) rfl
  obtain ⟨pd, hposDown, hpd⟩ := exec_set (s := s) (i := .setPosDown idx) rfl
  obtain ⟨wa, hwinA, hwa⟩ := exec_set (s := s) (i := .setWinA idx) rfl
  obtain ⟨wb, hwinB, hwb⟩ := exec_set (s := s) (i := .setWinB idx) rfl
  obtain ⟨lp, hleap, hlp⟩ := exec_set (s := s) (i := .setLeap idx) rfl
  refine ⟨pu, pd, wa, wb, lp, hposUp, hposDown, hwinA, hwinB, hleap, fun g => ?_⟩
  rw [← positionOperand_eq_ofNat, ← leapOperand_eq_ofNat]
  exact ⟨hpu g, hpd g, hwa g, hwb g, hlp g⟩

/-- Settles O9: a cascade has at most 16383 rings, so `4N` fits 32 bits. -/
theorem numSeedsAnswersFourN : Obligations.NumSeedsAnswersFourN := by
  intro s
  have hn : s.cfg.n ≤ 16383 := s.cfg.n_le
  exact ⟨by omega, rfl⟩

/-- Settles O10: both are GETs of a whole 64-bit field. -/
theorem getSeedAndGetStateAnswerTheField : Obligations.GetSeedAndGetStateAnswerTheField := fun _ _ =>
  ⟨fun h => ⟨exec_get_inRange rfl h, exec_get_inRange rfl h⟩,
    fun h => ⟨exec_get_outOfRange rfl h, exec_get_outOfRange rfl h⟩⟩

/-- Settles O11: all five are GETs of a field narrower than the data word. -/
theorem getParametersAnswerTheFieldZeroExtended : Obligations.GetParametersAnswerTheFieldZeroExtended := by
  intro s idx
  refine ⟨fun h => ⟨?posUp, ?posDown, ?winA, ?winB, ?leap⟩, fun h i hi => ?outOfRange⟩
  case posUp => exact exec_get_inRange_setWidth (field := Reg.posUp) rfl h
  case posDown => exact exec_get_inRange_setWidth (field := Reg.posDown) rfl h
  case winA => exact exec_get_inRange_setWidth (field := Reg.winA) rfl h
  case winB => exact exec_get_inRange_setWidth (field := Reg.winB) rfl h
  case leap => exact exec_get_inRange_setWidth (field := Reg.leap) rfl h
  case outOfRange =>
    simp only [List.mem_cons, List.not_mem_nil, or_false] at hi
    obtain rfl | rfl | rfl | rfl | rfl := hi <;> exact exec_get_outOfRange rfl h

end Sys2Proof.Proofs
end

section
/-! PROOF. The commands an error refuses before any write (family 60_exceptions). -/

namespace Sys2Proof.Proofs

open Sys2Proof.Machine

/-- Settles O16: a rejected password opens no key-schedule port, and REKEY raises KeyRejected before it draws. -/
theorem rejectedRekeyChangesNothing : Obligations.RejectedRekeyChangesNothing := by
  intro s hrejected
  have hclosed : openKeySchedule s.cfg s.ports.pwd = none := (openKeySchedule_eq_none _ _).mpr hrejected
  exact exec_rekey_rejected hclosed

/-- Settles O23: on an unkeyed machine a block command raises UnkeyedUse before it writes. -/
theorem unkeyedBlockCommandsAreRefused : Obligations.UnkeyedBlockCommandsAreRefused := fun _ hunkeyed =>
  ⟨exec_block_unkeyed (.inl rfl) hunkeyed, exec_block_unkeyed (.inr rfl) hunkeyed⟩

end Sys2Proof.Proofs
end

section
/-! SUPPORT. The response of a completed command (spec/30_encoding.md R60, R64). -/

namespace Sys2Proof.Machine

/-- Beside its one response a completed command has written the cascade only, whichever way it ended. -/
theorem exec_gives_response {i : Instr} {s t : State} (h : exec i s = .next t) :
    ∃ (a : Cascade s.cfg.n) (r : Response), t = { s with cascade := a, resp := some r } := by
  obtain ⟨-, p, -, rfl⟩ | ⟨-, rf, r, rfl, -, -⟩ := exec_cases h
  · exact ⟨commitKey (drawKey s.cfg.n p).1 s.cascade, ⟨0, 0, 0⟩, rfl⟩
  · exact ⟨{ s.cascade with regs := rf }, r, rfl⟩

end Sys2Proof.Machine
end

section
/-! PROOF. The idle core and the completion of every command (family 70_reset_and_hazards). -/

namespace Sys2Proof.Proofs

open Sys2Proof.Machine

/-- Settles O8: an illegal word is answered by the condition it raises, a command that decodes by its execution. -/
theorem everyCommandCompletesWithAResponse : Obligations.EveryCommandCompletesWithAResponse := by
  intro s c rest hpending
  cases hdecode : decode c.cmd with
  | error e => exact ⟨s.cascade, ⟨Condition.illegalCommand.code, 0, 0⟩, step_of_decode_error hpending hdecode⟩
  | ok i =>
    obtain ⟨t, hexec⟩ := exec_completes i (s.accept c rest)
    obtain ⟨a, r, rfl⟩ := exec_gives_response hexec
    exact ⟨a, r, (step_of_decode_ok hpending hdecode).trans hexec⟩

/-- Settles O7: the step's first branch, taken when the stream is empty, is to wait (R191, log 6). -/
theorem idleCoreWaits : Obligations.IdleCoreWaits := by
  intro s hidle
  simp only [step, hidle]

end Sys2Proof.Proofs
end
